-- ==== Sys2Proof/Word.lean ====
section
/-! DEFINITION. The widths the spec gives its values (R8, R11, R22, R80, R81), and nothing else. -/

namespace Sys2Proof

/-- A register or a data-memory word: a 32-bit pattern (XLEN = 32; R11, R22, R41). -/
abbrev Word := BitVec 32

/-- An instruction word: 64 bits (ILEN = 64; R40, R80). -/
abbrev InstrWord := BitVec 64

/-- The name of a general register: R and one decimal digit, so ten names and no more (R110). Which of them name a
register of the machine is its NREG (R21, R8). -/
abbrev Reg := Fin 10

/-- A number of registers: at most the ten that have a name (R8: "a model may not take it above 10"). -/
abbrev RegCount := Fin 11

end Sys2Proof
end

