-- ==== Sys2Proof/Config.lean ====
section
/-! DEFINITION. The parameters of R8: the four capacities NREG, DMEM_DEPTH, IMEM_DEPTH and LABEL_CAP with the source's
values as their defaults (R7), and FLAG_RESET, OVF_MODE and DIV_OVF_MODE. -/

namespace Sys2Proof

/-- The comparison flag's three values (R28). -/
inductive Flag where
  | less
  | equal
  | greater
deriving DecidableEq, Repr

/-- The flag's 2-bit hardware encoding (R28); 0b11 is no value's code. -/
def Flag.code : Flag → BitVec 2
  | .equal => 0b00
  | .less => 0b01
  | .greater => 0b10

/-- What an instruction does whose exact result does not fit (R8: OVF_MODE, DIV_OVF_MODE). -/
inductive OverflowMode where
  | wrap
  | fault
deriving DecidableEq, Repr

/-- The parameters a machine is built with (R7, R8, D3, D5, D10, D17). They are fixed for one machine: State holds
them, and no step and no host event changes them (notes/assumptions/2.md). The ranges of the capacities are those
that the spec's names, ports and pc can serve (notes/assumptions/10.md). -/
structure Params where
  /-- NREG: the number of general registers (R21). -/
  nreg : RegCount
  /-- DMEM_DEPTH: the number of data-memory words (R41, R61). -/
  dmemDepth : Nat
  /-- IMEM_DEPTH: the capacity of the instruction memory in words (R40), a number that PCW = 10 bits hold (D36). -/
  imemDepth : Fin 1024
  /-- LABEL_CAP: the number of label-table entries (R38), at most what the 7-bit lt_addr reaches (R45). -/
  labelCap : Fin 129
  /-- FLAG_RESET: the flag's value after reset (R30). -/
  flagReset : Flag
  /-- OVF_MODE: ADD, SUB and MUL on overflow (R170). -/
  ovfMode : OverflowMode
  /-- DIV_OVF_MODE: DIV of -2^31 by -1 (R174). -/
  divOvfMode : OverflowMode
deriving DecidableEq, Repr

namespace Config

/-- The default of NREG (R8, R21): the source's 10 registers. -/
def nreg : RegCount := 10

/-- The default of DMEM_DEPTH (R8, R41): the source's 1000 words. -/
def dmemDepth : Nat := 1000

/-- The default of IMEM_DEPTH (R8, R40): the source's MAX_LINES. -/
def imemDepth : Fin 1024 := 1000

/-- The default of LABEL_CAP (R8, R38): the source's MAX_LABELS. -/
def labelCap : Fin 129 := 100

end Config

/-- The defaults of R8. FLAG_RESET has none in the spec; EQUAL, whose code is zero, is the model's (DESIGN CHOICE,
unsafe: notes/assumptions/1.md). -/
def Params.default : Params where
  nreg := Config.nreg
  dmemDepth := Config.dmemDepth
  imemDepth := Config.imemDepth
  labelCap := Config.labelCap
  flagReset := .equal
  ovfMode := .wrap
  divOvfMode := .fault

end Sys2Proof
end

