-- ==== Sys2Proof/Syntax.lean ====
section
/-! DEFINITION. The 19 instructions of the closed set of R3, one constructor per row of the opcode table (R88).
An operand is what the spec says it is: a register name (R85), LOAD's 32-bit pattern (R83), a data address as a
mathematical integer (R84), a label id as a natural number (R86). -/

namespace Sys2Proof

/-- An instruction (R3, R88). The first register operand is `rd` and the second `rs`, whatever the source calls
them (R17). -/
inductive Instr where
  /-- 0x01, format RI: Rd := imm (R150). -/
  | load (rd : Reg) (imm : Word)
  /-- 0x02, format RA: memory[addr] := Rd (R151). -/
  | store (rd : Reg) (addr : Int)
  /-- 0x03, format RA: Rd := memory[addr] (R152). -/
  | loadm (rd : Reg) (addr : Int)
  /-- 0x04, format RR (R171). -/
  | add (rd rs : Reg)
  /-- 0x05, format RR (R172). -/
  | sub (rd rs : Reg)
  /-- 0x06, format RR (R173). -/
  | mul (rd rs : Reg)
  /-- 0x07, format RR (R174). -/
  | div (rd rs : Reg)
  /-- 0x08, format RR (R175). -/
  | mov (rd rs : Reg)
  /-- 0x09, format RR: Ra in rd, Rb in rs (R200). -/
  | cmp (rd rs : Reg)
  /-- 0x0A, format L (R203). -/
  | jmp (id : Nat)
  /-- 0x0B, format L (R204). -/
  | jne (id : Nat)
  /-- 0x0C, format L (R205). -/
  | jeq (id : Nat)
  /-- 0x0D, format L (R206). -/
  | jgt (id : Nat)
  /-- 0x0E, format L (R207). -/
  | jlt (id : Nat)
  /-- 0x0F, format R1 (R230). -/
  | print (rd : Reg)
  /-- 0x10, format RR (R240). -/
  | and (rd rs : Reg)
  /-- 0x11, format RR (R241). -/
  | or (rd rs : Reg)
  /-- 0x12, format RR (R242). -/
  | xor (rd rs : Reg)
  /-- 0x13, format R1 (R243). -/
  | not (rd : Reg)
deriving DecidableEq, Repr

end Sys2Proof
end

