-- ==== Sys2Proof/WellFormed.lean ====
section
/-! DEFINITION. Which instructions have a word on a machine of NREG registers: register operands among them (R85), a
data address in the range of R84, a label id in the range of R86. LOAD's pattern is in range by its type. -/

namespace Sys2Proof

/-- A data address the 32-bit field can hold as a signed number: [-2^31, 2^31-1] (R84). -/
def addressEncodable (a : Int) : Bool :=
  decide (-2147483648 ≤ a ∧ a ≤ 2147483647)

/-- A label id the 32-bit field can hold: [0, 2^32-1] (R86). -/
def labelEncodable (id : Nat) : Bool :=
  decide (id ≤ 4294967295)

/-- The register is one of the `n` there are (R21, R85). -/
def registerExists (n : RegCount) (r : Reg) : Bool := decide (r.val < n.val)

/-- The instruction's operands fit its format's fields (R82 to R86), with `n` registers. -/
def Instr.wellFormed (n : RegCount) : Instr → Bool
  | .load rd _ => registerExists n rd
  | .store rd addr => registerExists n rd && addressEncodable addr
  | .loadm rd addr => registerExists n rd && addressEncodable addr
  | .add rd rs => registerExists n rd && registerExists n rs
  | .sub rd rs => registerExists n rd && registerExists n rs
  | .mul rd rs => registerExists n rd && registerExists n rs
  | .div rd rs => registerExists n rd && registerExists n rs
  | .mov rd rs => registerExists n rd && registerExists n rs
  | .cmp rd rs => registerExists n rd && registerExists n rs
  | .jmp id => labelEncodable id
  | .jne id => labelEncodable id
  | .jeq id => labelEncodable id
  | .jgt id => labelEncodable id
  | .jlt id => labelEncodable id
  | .print rd => registerExists n rd
  | .and rd rs => registerExists n rd && registerExists n rs
  | .or rd rs => registerExists n rd && registerExists n rs
  | .xor rd rs => registerExists n rd && registerExists n rs
  | .not rd => registerExists n rd

end Sys2Proof
end

