-- ==== Sys2Proof/Decode.lean ====
section
/-! DEFINITION. The decoder of R89, total on every 64-bit word, and the encoder of R116, both written from the
field table of R81, the formats of R82 and the opcode map of R88. -/

namespace Sys2Proof

/-! ### The fields of R81 -/

/-- `opcode`, bits [63:56]. -/
def wordOpcode (w : InstrWord) : BitVec 8 := w.extractLsb' 56 8

/-- `rd`, bits [55:52]. -/
def wordRd (w : InstrWord) : BitVec 4 := w.extractLsb' 52 4

/-- `rs`, bits [51:48]. -/
def wordRs (w : InstrWord) : BitVec 4 := w.extractLsb' 48 4

/-- `z`, bits [47:32], zero in every instruction (R87). -/
def wordZ (w : InstrWord) : BitVec 16 := w.extractLsb' 32 16

/-- `imm`, bits [31:0]. -/
def wordImm (w : InstrWord) : BitVec 32 := w.extractLsb' 0 32

/-- The register a 4-bit field names among `n`: a value below NREG names that register, any other none (R85, whose 10
is NREG's default: R7). -/
def regOfField (n : RegCount) (v : BitVec 4) : Option Reg :=
  if h : v.toNat < n.val then some ⟨v.toNat, by omega⟩ else none

/-! ### Decoding -/

/-- The field an IllegalInstruction fault names (R89, R262). -/
inductive BadField where
  | rd
  | rs
  | z
  | imm
deriving DecidableEq, Repr

/-- The number FAULT_INFO gives the field: 1 rd, 2 rs, 3 z, 4 imm (R262). -/
def BadField.code : BadField → Word
  | .rd => 1
  | .rs => 2
  | .z => 3
  | .imm => 4

/-- Why a word is no instruction (R89); the block takes the fault R261 or R262 describes. -/
inductive DecodeFault where
  /-- The opcode is 0x00 or 0x14 to 0xFF (R91, R261). -/
  | unknownInstruction (opcode : BitVec 8)
  /-- A known opcode with a field that breaks R85 or R87 (R262). -/
  | illegalInstruction (field : BadField)
deriving DecidableEq, Repr

/-- The checks formats RI and RA share, in the order of R89: rd a register, rs zero, z zero. -/
def decodeRegImm (n : RegCount) (mk : Reg → Word → Instr) (w : InstrWord) : Except DecodeFault Instr :=
  match regOfField n (wordRd w) with
  | none => .error (.illegalInstruction .rd)
  | some rd =>
    if wordRs w ≠ 0 then .error (.illegalInstruction .rs)
    else if wordZ w ≠ 0 then .error (.illegalInstruction .z)
    else .ok (mk rd (wordImm w))

/-- Format RA: the address is the integer sint(imm) (R84). -/
def decodeRegAddr (n : RegCount) (mk : Reg → Int → Instr) (w : InstrWord) : Except DecodeFault Instr :=
  decodeRegImm n (fun rd imm => mk rd imm.toInt) w

/-- Format RR: rd and rs registers, then z and imm zero (R89). -/
def decodeRegReg (n : RegCount) (mk : Reg → Reg → Instr) (w : InstrWord) : Except DecodeFault Instr :=
  match regOfField n (wordRd w) with
  | none => .error (.illegalInstruction .rd)
  | some rd =>
    match regOfField n (wordRs w) with
    | none => .error (.illegalInstruction .rs)
    | some rs =>
      if wordZ w ≠ 0 then .error (.illegalInstruction .z)
      else if wordImm w ≠ 0 then .error (.illegalInstruction .imm)
      else .ok (mk rd rs)

/-- Format R1: rd a register, then rs, z and imm zero (R89). -/
def decodeReg (n : RegCount) (mk : Reg → Instr) (w : InstrWord) : Except DecodeFault Instr :=
  match regOfField n (wordRd w) with
  | none => .error (.illegalInstruction .rd)
  | some rd =>
    if wordRs w ≠ 0 then .error (.illegalInstruction .rs)
    else if wordZ w ≠ 0 then .error (.illegalInstruction .z)
    else if wordImm w ≠ 0 then .error (.illegalInstruction .imm)
    else .ok (mk rd)

/-- Format L: rd, rs and z zero (R89); the label id is uint(imm) (R86). -/
def decodeLabel (mk : Nat → Instr) (w : InstrWord) : Except DecodeFault Instr :=
  if wordRd w ≠ 0 then .error (.illegalInstruction .rd)
  else if wordRs w ≠ 0 then .error (.illegalInstruction .rs)
  else if wordZ w ≠ 0 then .error (.illegalInstruction .z)
  else .ok (mk (wordImm w).toNat)

/-- The decoder (R88, R89) of a machine with `n` registers: a total function of the word, reading no state (R92), an
unknown opcode rejected before any field is looked at (R90). -/
def decode (n : RegCount) (w : InstrWord) : Except DecodeFault Instr :=
  match (wordOpcode w).toNat with
  | 0x01 => decodeRegImm n .load w
  | 0x02 => decodeRegAddr n .store w
  | 0x03 => decodeRegAddr n .loadm w
  | 0x04 => decodeRegReg n .add w
  | 0x05 => decodeRegReg n .sub w
  | 0x06 => decodeRegReg n .mul w
  | 0x07 => decodeRegReg n .div w
  | 0x08 => decodeRegReg n .mov w
  | 0x09 => decodeRegReg n .cmp w
  | 0x0A => decodeLabel .jmp w
  | 0x0B => decodeLabel .jne w
  | 0x0C => decodeLabel .jeq w
  | 0x0D => decodeLabel .jgt w
  | 0x0E => decodeLabel .jlt w
  | 0x0F => decodeReg n .print w
  | 0x10 => decodeRegReg n .and w
  | 0x11 => decodeRegReg n .or w
  | 0x12 => decodeRegReg n .xor w
  | 0x13 => decodeReg n .not w
  | _ => .error (.unknownInstruction (wordOpcode w))

/-- The instruction the decoder, with the default NREG, reads from an instruction of `nbits` bits whose bits are
`w`, every higher bit of the 64-bit word being zero. An instruction is one whole word (R80), so there is no byte order to lay out
(R66). -/
def decodeTableWord (nbits w : Nat) : Option Instr :=
  match decode Config.nreg (BitVec.ofNat 64 (w % 2 ^ nbits)) with
  | .ok i => some i
  | .error _ => none

/-! ### Encoding -/

/-- A word from its four operand fields, z zero (R81, R116). -/
def packWord (opcode : BitVec 8) (rd rs : BitVec 4) (imm : BitVec 32) : InstrWord :=
  opcode ++ rd ++ rs ++ (0 : BitVec 16) ++ imm

/-- The 4-bit field that names a register (R85). -/
def fieldOfReg (r : Reg) : BitVec 4 := BitVec.ofNat 4 r.val

/-- The words of R116: opcode from R88, a field the format does not use zero (R87), an address as bits32(addr) and
a label id as its 32-bit pattern. -/
def encode : Instr → InstrWord
  | .load rd imm => packWord 0x01 (fieldOfReg rd) 0 imm
  | .store rd addr => packWord 0x02 (fieldOfReg rd) 0 (BitVec.ofInt 32 addr)
  | .loadm rd addr => packWord 0x03 (fieldOfReg rd) 0 (BitVec.ofInt 32 addr)
  | .add rd rs => packWord 0x04 (fieldOfReg rd) (fieldOfReg rs) 0
  | .sub rd rs => packWord 0x05 (fieldOfReg rd) (fieldOfReg rs) 0
  | .mul rd rs => packWord 0x06 (fieldOfReg rd) (fieldOfReg rs) 0
  | .div rd rs => packWord 0x07 (fieldOfReg rd) (fieldOfReg rs) 0
  | .mov rd rs => packWord 0x08 (fieldOfReg rd) (fieldOfReg rs) 0
  | .cmp rd rs => packWord 0x09 (fieldOfReg rd) (fieldOfReg rs) 0
  | .jmp id => packWord 0x0A 0 0 (BitVec.ofNat 32 id)
  | .jne id => packWord 0x0B 0 0 (BitVec.ofNat 32 id)
  | .jeq id => packWord 0x0C 0 0 (BitVec.ofNat 32 id)
  | .jgt id => packWord 0x0D 0 0 (BitVec.ofNat 32 id)
  | .jlt id => packWord 0x0E 0 0 (BitVec.ofNat 32 id)
  | .print rd => packWord 0x0F (fieldOfReg rd) 0 0
  | .and rd rs => packWord 0x10 (fieldOfReg rd) (fieldOfReg rs) 0
  | .or rd rs => packWord 0x11 (fieldOfReg rd) (fieldOfReg rs) 0
  | .xor rd rs => packWord 0x12 (fieldOfReg rd) (fieldOfReg rs) 0
  | .not rd => packWord 0x13 (fieldOfReg rd) 0 0

end Sys2Proof
end

