-- ==== Sys2Proof/Machine/State.lean ====
section
/-! DEFINITION. The state of R20 and R49, the program image of R9 and the parameters of R8 held beside it, and the
machine right after reset (R301). -/

namespace Sys2Proof.Machine

/-- STATUS, the run state (R32); its fourth code is never written. -/
inductive Status where
  | running
  | halted
  | faulted
deriving DecidableEq, Repr

/-- STATUS as the host reads it on the 2-bit port (R32). -/
def Status.code : Status → BitVec 2
  | .running => 0
  | .halted => 1
  | .faulted => 2

/-- CAUSE: no fault, or one of the six faults of R260; codes 7 to 15 are never written (R33). -/
inductive Cause where
  | none
  | unknownInstruction
  | illegalInstruction
  | undefinedLabel
  | divisionByZero
  | memoryOutOfBounds
  | arithmeticOverflow
deriving DecidableEq, Repr

/-- CAUSE as the host reads it on the 4-bit port: the cause codes of R260. -/
def Cause.code : Cause → BitVec 4
  | .none => 0
  | .unknownInstruction => 1
  | .illegalInstruction => 2
  | .undefinedLabel => 3
  | .divisionByZero => 4
  | .memoryOutOfBounds => 5
  | .arithmeticOverflow => 6

/-- One label-table entry: a valid bit and a 10-bit address (R38). -/
structure LabelEntry where
  v : Bool
  addr : BitVec 10
deriving DecidableEq, Repr

/-- The machine. The first ten fields are the state of R20 and R49; the image (`imem`, `progLen`, `lt`) and the
parameters are the configuration of R49, which no instruction changes (R9); `rst` is the level of the reset input
(R45). A memory is a list of (index, content) pairs with rising indices. -/
structure State where
  /-- The general registers (R21, R22), one place per register name. Where NREG is below 10 the places from NREG up are no
  registers: no word names them, they hold 0 (an invariant), and no port shows them (notes/assumptions/10.md). -/
  x : Vector Word 10
  /-- The comparison flag (R28). -/
  flag : Flag
  /-- The program counter: an instruction index (R25, R49). -/
  pc : Nat
  /-- Data memory: the words that are not zero; an unlisted index reads as 0 (R41, R72). -/
  dmem : List (Nat × Word)
  /-- STATUS (R32). -/
  status : Status
  /-- CAUSE (R33). -/
  cause : Cause
  /-- FAULT_PC (R34). -/
  faultPc : Nat
  /-- FAULT_WORD (R35). -/
  faultWord : InstrWord
  /-- FAULT_INFO (R36). -/
  faultInfo : Word
  /-- OUT, the output trace, oldest event first (R42). -/
  out : List (Reg × Word)
  /-- Instruction memory: the words the host has written; an unlisted index has not been written (R40, R302). -/
  imem : List (Nat × InstrWord)
  /-- PROG_LEN; `none` until the host has written it, the spec's own state (R37, R302). -/
  progLen : Option (BitVec 10)
  /-- The label table: the entries the host has written; an unlisted id has not been written (R38, R302). -/
  lt : List (Nat × LabelEntry)
  /-- The parameters of this machine (R8). -/
  params : Params
  /-- `rst` is asserted (R45, R300). -/
  rst : Bool
deriving DecidableEq, Repr

/-- The reset values of R301 for a machine with the given parameters and image, which reset leaves as they are; the
level of `rst` is given beside them. -/
def State.resetValues (params : Params) (imem : List (Nat × InstrWord)) (progLen : Option (BitVec 10))
    (lt : List (Nat × LabelEntry)) (rst : Bool) : State where
  x := Vector.replicate 10 0
  flag := params.flagReset
  pc := 0
  dmem := []
  status := .running
  cause := .none
  faultPc := 0
  faultWord := 0
  faultInfo := 0
  out := []
  imem := imem
  progLen := progLen
  lt := lt
  params := params
  rst := rst

/-- The machine right after reset (R301), `rst` deasserted, with the parameters' defaults (R8) and an image the host
has not written yet (R302). -/
def State.reset : State :=
  State.resetValues Params.default [] none [] false

/-- Faults of the model itself: a host access to an address that does not exist. The block's own six faults (R260)
are not here: R270 describes taking them, so they are NEXT states with STATUS = FAULTED. -/
inductive Fault where
  /-- Raised by a host write of IMEM at IMEM_DEPTH or above (R40).
  Safe: the model stops. -/
  | imemWriteOutside (addr : BitVec 10)
  /-- Raised by a host write of the label table at LABEL_CAP or above (R45).
  Safe: the model stops. -/
  | labelWriteOutside (id : BitVec 7)
deriving DecidableEq, Repr

/-- Why a step is refused: the spec says that a model refuses such an image (R37, R38, R302). -/
inductive Refusal where
  /-- Raised by exec's arm of an instruction without a meaning (none is left). Safe: the model stops. -/
  | notModelled (mnemonic : String)
  /-- Raised by a step whose image the host has not written: PROG_LEN, IMEM[0..len-1] or LT[0..LABEL_CAP-1] (R302, R303);
  and by a fault whose FAULT_WORD would be a word never written. Safe: the model stops. -/
  | imageNotWritten
  /-- Raised by a step with PROG_LEN above IMEM_DEPTH (R37). Safe: the model stops. -/
  | progLenAboveCapacity
  /-- Raised by a step whose image has a valid label entry with an address above len (R38). Safe: the model
  stops. -/
  | labelAboveLength
deriving DecidableEq, Repr

/-- The outcome of an operation of the machine. -/
abbrev Result := Host.Outcome State Fault Refusal

end Sys2Proof.Machine
end

