-- ==== Sys2Proof/Machine/Ops.lean ====
section
/-! DEFINITION. The named operations over the state: sparse memories, registers, data memory, output, the pc, the
halt, TAKING A FAULT (R270, the one shared operation), the label table, the image check, and what a step does before
it has an instruction to run. -/

namespace Sys2Proof.Machine

/-! ### Sparse memories: (index, content) pairs with rising indices -/

/-- The content at index `k`, if it is listed. -/
def cellAt {α : Type} (k : Nat) : List (Nat × α) → Option α
  | [] => none
  | (j, v) :: rest => if j = k then some v else cellAt k rest

/-- The list with `v` at index `k`, in its place in the order. -/
def cellSet {α : Type} (k : Nat) (v : α) : List (Nat × α) → List (Nat × α)
  | [] => [(k, v)]
  | (j, u) :: rest =>
    if j < k then (j, u) :: cellSet k v rest
    else if j = k then (k, v) :: rest
    else (k, v) :: (j, u) :: rest

/-- The list without any entry at index `k`. -/
def cellErase {α : Type} (k : Nat) : List (Nat × α) → List (Nat × α)
  | [] => []
  | (j, u) :: rest => if j = k then cellErase k rest else (j, u) :: cellErase k rest

/-- Every listed index is at least `low` and the indices rise strictly. -/
def risingFrom {α : Type} (low : Nat) : List (Nat × α) → Bool
  | [] => true
  | (j, _) :: rest => decide (low ≤ j) && risingFrom (j + 1) rest

/-- The list with every index below `n` listed, `v` at those that were not. -/
def cellFill {α : Type} (n : Nat) (v : α) (cells : List (Nat × α)) : List (Nat × α) :=
  (List.range n).map (fun k => (k, (cellAt k cells).getD v)) ++ cells.filter (fun c => decide (n ≤ c.1))

/-- Every index below `n` is listed: in a rising list the first `n` indices are then 0 to n-1. -/
def listsAllBelow {α : Type} (n : Nat) (cells : List (Nat × α)) : Bool :=
  decide ((cells.take n).map Prod.fst = List.range n)

/-! ### Registers (R21, R23) -/

/-- `x[r]` (R13). -/
def State.reg (s : State) (r : Reg) : Word := s.x[r]

/-- `x[r] <- v` (R13). There is no hardwired register (R21). -/
def State.setReg (r : Reg) (v : Word) (s : State) : State := { s with x := s.x.set r v }

/-! ### Data memory (R61, R63) -/

/-- The word data-memory index `k` holds; an unlisted index reads as 0 (R72). -/
def dmemRead (k : Nat) (mem : List (Nat × Word)) : Word := (cellAt k mem).getD 0

/-- Data memory with `v` at index `k`; a zero word is not listed, so that equal memories are equal lists. -/
def dmemWrite (k : Nat) (v : Word) (mem : List (Nat × Word)) : List (Nat × Word) :=
  if v = 0 then cellErase k mem else cellSet k v mem

/-- The one form of a data memory of `depth` words: indices below `depth` rising strictly, no zero word listed
(R61, R72). -/
def Memory.wf (depth : Nat) (mem : List (Nat × Word)) : Bool :=
  risingFrom 0 mem && mem.all (fun c => decide (c.1 < depth ∧ c.2 ≠ 0))

/-- `MemRead(k, 1)` at a valid index (R63). -/
def State.mem (s : State) (k : Nat) : Word := dmemRead k s.dmem

/-- `MemWrite(k, 1, v)` at a valid index (R63). -/
def State.setMem (k : Nat) (v : Word) (s : State) : State := { s with dmem := dmemWrite k v s.dmem }

/-! ### Flag, output, pc and halt -/

/-- `flag <- f` (R13). -/
def State.setFlag (f : Flag) (s : State) : State := { s with flag := f }

/-- `emit(d, v)`: one event appended to the output trace (R13, R42, R230). -/
def State.emit (d : Reg) (v : Word) (s : State) : State := { s with out := s.out ++ [(d, v)] }

/-- `pc <- target` of a taken jump (R135). -/
def State.setPc (target : Nat) (s : State) : State := { s with pc := target }

/-- The pc advance of R135. -/
def State.advance (s : State) : State := s.setPc (s.pc + 1)

/-- The halt of R132: STATUS and nothing else. -/
def State.halt (s : State) : State := { s with status := .halted }

/-! ### Taking a fault -/

/-- Fault entry (R270) with a cause, its information word and the faulting instruction's word: STATUS, CAUSE,
FAULT_PC, FAULT_WORD and FAULT_INFO are written; the pc stays and nothing else changes. There is no handler and no
return (R271, R272). -/
def State.enterFault (c : Cause) (info : Word) (w : InstrWord) (s : State) : State :=
  { s with status := .faulted, cause := c, faultPc := s.pc, faultWord := w, faultInfo := info }

/-- The word IMEM[pc], if the host has written it (R133). -/
def State.wordAtPc (s : State) : Option InstrWord := cellAt s.pc s.imem

/-- `raise c(info)` (R13): the fault is taken with the word fetched at the pc. In a step that word is there; a state
in which it was never written is refused (R302; notes/assumptions/7.md). -/
def takeFault (c : Cause) (info : Word) (s : State) : Result :=
  match s.wordAtPc with
  | some w => .next (s.enterFault c info w)
  | none => .refused .imageNotWritten

/-- The cause a decode fault has (R260). -/
def decodeFaultCause : DecodeFault → Cause
  | .unknownInstruction _ => .unknownInstruction
  | .illegalInstruction _ => .illegalInstruction

/-- The information word a decode fault has: zext_32(opcode), or the field's number (R261, R262). -/
def decodeFaultInfo : DecodeFault → Word
  | .unknownInstruction opcode => opcode.setWidth 32
  | .illegalInstruction field => field.code

/-! ### The label table (R38, R202) -/

/-- The address label `id` resolves to, if `id` names a valid entry: below LABEL_CAP, v = 1 (R202). -/
def State.labelTarget (s : State) (id : Nat) : Option Nat :=
  if id < s.params.labelCap.val then
    match cellAt id s.lt with
    | some e => if e.v then some e.addr.toNat else none
    | none => none
  else none

/-- A taken jump: the label is resolved now, UndefinedLabel if it names no entry (R202, R263). -/
def takeJump (id : Nat) (s : State) : Result :=
  match s.labelTarget id with
  | some target => .next (s.setPc target)
  | none => takeFault .undefinedLabel (BitVec.ofNat 32 id) s

/-! ### The program image (R9, R37, R38, R302) -/

/-- PROG_LEN as a number; 0 where it is not written (the image check then refuses the step). -/
def State.len (s : State) : Nat :=
  match s.progLen with
  | some n => n.toNat
  | none => 0

/-- Why a model refuses the state's image, if it does: not written (R302), PROG_LEN above IMEM_DEPTH (R37), a valid label
entry whose address exceeds len (R38). -/
def State.imageProblem (s : State) : Option Refusal :=
  if s.progLen = none then some .imageNotWritten
  else if s.params.imemDepth.val < s.len then some .progLenAboveCapacity
  else if !(listsAllBelow s.len s.imem && listsAllBelow s.params.labelCap.val s.lt) then some .imageNotWritten
  else if s.lt.any (fun c => c.2.v && decide (s.len < c.2.addr.toNat)) then some .labelAboveLength
  else none

/-! ### A step up to its instruction (R130 to R133) -/

/-- What a step request does before it has an instruction: either it ends here (`error`, with its outcome) or it has
an instruction to execute (`ok`). While `rst` is asserted, or with STATUS not RUNNING, nothing changes (R131, R300);
a bad image is refused (R302); pc >= len halts (R132); a word that is no instruction takes its fault (R89). -/
def beginStep (s : State) : Except Result Instr :=
  if s.rst then .error (.next s)
  else if s.status ≠ .running then .error (.next s)
  else
    match s.imageProblem with
    | some r => .error (.refused r)
    | none =>
      if s.len ≤ s.pc then .error (.next s.halt)
      else
        match s.wordAtPc with
        | none => .error (.refused .imageNotWritten)
        | some w =>
          match decode s.params.nreg w with
          | .error e => .error (takeFault (decodeFaultCause e) (decodeFaultInfo e) s)
          | .ok i => .ok i

/-- The state with the word `w` at the pc of a loaded, running machine: `rst` low, STATUS RUNNING, the program at
least long enough to hold it, and every part of the image a run needs written (a missing word as word 0, a missing
label entry as invalid, as R114 writes it). A pc with no IMEM entry is left alone. -/
def State.placeWord (w : InstrWord) (s : State) : State :=
  if s.pc < s.params.imemDepth.val then
    { s with
      rst := false
      status := .running
      imem := cellSet s.pc w (cellFill (max s.len (s.pc + 1)) 0 s.imem)
      progLen := some (BitVec.ofNat 10 (max s.len (s.pc + 1)))
      lt := cellFill s.params.labelCap.val { v := false, addr := 0 } s.lt }
  else s

end Sys2Proof.Machine
end

