-- ==== Sys2Proof/Machine/Operands.lean ====
section
/-! DEFINITION. The operand forms and the integer laws the instruction families share: the signed value of a register
(R11), bits32 and tdiv (R11, R12), a data address checked against the memory's range (R63, R84), and the write of an
exact arithmetic result (R170). -/

namespace Sys2Proof.Machine

/-- `sint(v)` (R11). -/
def sint (v : Word) : Int := v.toInt

/-- `bits32(n)`: n modulo 2^32 (R11). -/
def bits32 (n : Int) : Word := BitVec.ofInt 32 n

/-- `tdiv(a, b)`: the quotient rounded toward zero (R12). -/
def tdiv (a b : Int) : Int := Int.tdiv a b

/-- The exact result lies in [-2^31, 2^31-1] (R170). -/
def fitsSigned (r : Int) : Bool := decide (-2147483648 ≤ r ∧ r ≤ 2147483647)

/-- The data-memory index an address operand names, if 0 <= a < DMEM_DEPTH: never wrapped, never reduced
(R61, R64). -/
def dataIndex (depth : Nat) (a : Int) : Option Nat :=
  if 0 ≤ a ∧ a < (depth : Int) then some a.toNat else none

/-- Write `v` to `rd` and advance: the end of every instruction that writes a register (R13, R135). -/
def writeBack (rd : Reg) (v : Word) (s : State) : Result := .next ((s.setReg rd v).advance)

/-- The outcome of ADD, SUB and MUL with exact result `r` (R170): bits32(r), unless r does not fit and OVF_MODE is
fault, when ArithmeticOverflow(0) is taken. -/
def writeExact (rd : Reg) (r : Int) (s : State) : Result :=
  if fitsSigned r then writeBack rd (bits32 r) s
  else
    match s.params.ovfMode with
    | .wrap => writeBack rd (bits32 r) s
    | .fault => takeFault .arithmeticOverflow 0 s

end Sys2Proof.Machine
end

