-- ==== Sys2Proof/Machine/Arithmetic.lean ====
section
/-! DEFINITION. ADD, SUB, MUL, DIV and MOV (42_arithmetic.md). Both operands are read before the write (R136). -/

namespace Sys2Proof.Machine

/-- ADD Rd, Rs (R171). -/
def execAdd (rd rs : Reg) (s : State) : Result :=
  writeExact rd (sint (s.reg rd) + sint (s.reg rs)) s

/-- SUB Rd, Rs (R172). -/
def execSub (rd rs : Reg) (s : State) : Result :=
  writeExact rd (sint (s.reg rd) - sint (s.reg rs)) s

/-- MUL Rd, Rs (R173): the exact product, of which the low 32 bits are written. -/
def execMul (rd rs : Reg) (s : State) : Result :=
  writeExact rd (sint (s.reg rd) * sint (s.reg rs)) s

/-- DIV Rd, Rs (R174): DivisionByZero(rs) first (R264); -2^31 by -1 as DIV_OVF_MODE says (R266); else the quotient
rounded toward zero. -/
def execDiv (rd rs : Reg) (s : State) : Result :=
  let a := sint (s.reg rd)
  let b := sint (s.reg rs)
  if b = 0 then takeFault .divisionByZero (BitVec.ofNat 32 rs.val) s
  else if a = -2147483648 ∧ b = -1 then
    match s.params.divOvfMode with
    | .fault => takeFault .arithmeticOverflow 0 s
    | .wrap => writeBack rd 0x80000000 s
  else writeBack rd (bits32 (tdiv a b)) s

/-- MOV Rd, Rs (R175). -/
def execMov (rd rs : Reg) (s : State) : Result := writeBack rd (s.reg rs) s

end Sys2Proof.Machine
end

