-- ==== Sys2Proof/Machine/Bitwise.lean ====
section
/-! DEFINITION. AND, OR, XOR and NOT on 32-bit patterns (45_bitwise.md). -/

namespace Sys2Proof.Machine

/-- AND Rd, Rs (R240). -/
def execAnd (rd rs : Reg) (s : State) : Result := writeBack rd (s.reg rd &&& s.reg rs) s

/-- OR Rd, Rs (R241). -/
def execOr (rd rs : Reg) (s : State) : Result := writeBack rd (s.reg rd ||| s.reg rs) s

/-- XOR Rd, Rs (R242). -/
def execXor (rd rs : Reg) (s : State) : Result := writeBack rd (s.reg rd ^^^ s.reg rs) s

/-- NOT Rd (R243). -/
def execNot (rd : Reg) (s : State) : Result := writeBack rd (~~~(s.reg rd)) s

end Sys2Proof.Machine
end

