-- ==== Sys2Proof/Machine/Flags.lean ====
section
/-! DEFINITION. The comparison flag's computation (R200) and the jump conditions on it (R204 to R208). -/

namespace Sys2Proof.Machine

/-- The flag CMP writes for the signed values a and b (R200, R201). -/
def compareFlag (a b : Int) : Flag :=
  if a = b then .equal else if b < a then .greater else .less

/-- A jump on a condition: taken, or the pc advances and the label is not looked at (R202). -/
def jumpIf (taken : Bool) (id : Nat) (s : State) : Result :=
  if taken then takeJump id s else .next s.advance

/-- JNE's condition (R204). -/
def flagNotEqual (f : Flag) : Bool := decide (f ≠ .equal)

/-- JEQ's condition (R205). -/
def flagEqual (f : Flag) : Bool := decide (f = .equal)

/-- JGT's condition (R206). -/
def flagGreater (f : Flag) : Bool := decide (f = .greater)

/-- JLT's condition (R207). -/
def flagLess (f : Flag) : Bool := decide (f = .less)

end Sys2Proof.Machine
end

