-- ==== Sys2Proof/Machine/CompareJump.lean ====
section
/-! DEFINITION. CMP and the jump controller: JMP, JNE, JEQ, JGT and JLT (43_compare_jump.md). -/

namespace Sys2Proof.Machine

/-- CMP Ra, Rb (R200): the only writer of the flag (R29). -/
def execCmp (rd rs : Reg) (s : State) : Result :=
  .next ((s.setFlag (compareFlag (sint (s.reg rd)) (sint (s.reg rs)))).advance)

/-- JMP label (R203). -/
def execJmp (id : Nat) (s : State) : Result := takeJump id s

/-- JNE label (R204). -/
def execJne (id : Nat) (s : State) : Result := jumpIf (flagNotEqual s.flag) id s

/-- JEQ label (R205). -/
def execJeq (id : Nat) (s : State) : Result := jumpIf (flagEqual s.flag) id s

/-- JGT label (R206). -/
def execJgt (id : Nat) (s : State) : Result := jumpIf (flagGreater s.flag) id s

/-- JLT label (R207). -/
def execJlt (id : Nat) (s : State) : Result := jumpIf (flagLess s.flag) id s

end Sys2Proof.Machine
end

