-- ==== Sys2Proof/Machine/LoadStore.lean ====
section
/-! DEFINITION. LOAD, STORE and LOADM (41_load_store.md). -/

namespace Sys2Proof.Machine

/-- LOAD Rd, imm (R150). -/
def execLoad (rd : Reg) (imm : Word) (s : State) : Result := writeBack rd imm s

/-- STORE Rd, addr (R151): MemoryOutOfBounds(bits32(addr)) outside [0, DMEM_DEPTH) (R265). -/
def execStore (rd : Reg) (addr : Int) (s : State) : Result :=
  match dataIndex s.params.dmemDepth addr with
  | some k => .next ((s.setMem k (s.reg rd)).advance)
  | none => takeFault .memoryOutOfBounds (bits32 addr) s

/-- LOADM Rd, addr (R152): MemoryOutOfBounds(bits32(addr)) outside [0, DMEM_DEPTH) (R265). -/
def execLoadm (rd : Reg) (addr : Int) (s : State) : Result :=
  match dataIndex s.params.dmemDepth addr with
  | some k => writeBack rd (s.mem k) s
  | none => takeFault .memoryOutOfBounds (bits32 addr) s

end Sys2Proof.Machine
end

