-- ==== Sys2Proof/Machine/Output.lean ====
section
/-! DEFINITION. PRINT (44_output.md), the only instruction that reaches outside the block. -/

namespace Sys2Proof.Machine

/-- PRINT Rd (R230): the event (rd, x[rd]) is appended to OUT. -/
def execPrint (rd : Reg) (s : State) : Result := .next ((s.emit rd (s.reg rd)).advance)

end Sys2Proof.Machine
end

