-- ==== Sys2Proof/Machine/Dispatch.lean ====
section
/-! DEFINITION. The dispatch of R134: one arm per instruction, no default arm. -/

namespace Sys2Proof.Machine

def exec (i : Instr) (s : State) : Host.Outcome State Fault Refusal :=
  match i with
  | .load rd imm => Sys2Proof.Machine.execLoad rd imm s
  | .store rd addr => Sys2Proof.Machine.execStore rd addr s
  | .loadm rd addr => Sys2Proof.Machine.execLoadm rd addr s
  | .add rd rs => Sys2Proof.Machine.execAdd rd rs s
  | .sub rd rs => Sys2Proof.Machine.execSub rd rs s
  | .mul rd rs => Sys2Proof.Machine.execMul rd rs s
  | .div rd rs => Sys2Proof.Machine.execDiv rd rs s
  | .mov rd rs => Sys2Proof.Machine.execMov rd rs s
  | .cmp rd rs => Sys2Proof.Machine.execCmp rd rs s
  | .jmp id => Sys2Proof.Machine.execJmp id s
  | .jne id => Sys2Proof.Machine.execJne id s
  | .jeq id => Sys2Proof.Machine.execJeq id s
  | .jgt id => Sys2Proof.Machine.execJgt id s
  | .jlt id => Sys2Proof.Machine.execJlt id s
  | .print rd => Sys2Proof.Machine.execPrint rd s
  | .and rd rs => Sys2Proof.Machine.execAnd rd rs s
  | .or rd rs => Sys2Proof.Machine.execOr rd rs s
  | .xor rd rs => Sys2Proof.Machine.execXor rd rs s
  | .not rd => Sys2Proof.Machine.execNot rd s

end Sys2Proof.Machine
end

