-- ==== Sys2Proof/Machine/Step.lean ====
section
/-! DEFINITION. One step request (R130): what comes before the instruction is `beginStep` (Ops), what the instruction
does, its pc advance among it, is `exec`. -/

namespace Sys2Proof.Machine

/-- One step request on the `step` input (R45, R130). -/
def step (s : State) : Host.Outcome State Fault Refusal :=
  match beginStep s with
  | .error outcome => outcome
  | .ok i => exec i s

/-- The state with the word whose low `nbits` bits are `w`, and whose other bits are zero, as the next one to be
fetched; it stands for the host's load of R303 (notes/assumptions/3.md). -/
def State.withFetchWord (s : State) (nbits w : Nat) : State :=
  s.placeWord (BitVec.ofNat 64 (w % 2 ^ nbits))

end Sys2Proof.Machine
end

