-- ==== Sys2Proof/Machine/HostPort.lean ====
section
/-! DEFINITION. The block's interface to the host (R45): the inputs as events, the outputs as views of the state, and
the debug read ports (R48). -/

namespace Sys2Proof.Machine

/-- What the host can do to the block (R45). -/
inductive HostEvent where
  /-- Assert `rst`. -/
  | assertRst
  /-- Deassert `rst`. -/
  | releaseRst
  /-- `imem_we` with `imem_addr` and `imem_wdata`. -/
  | writeImem (addr : BitVec 10) (data : InstrWord)
  /-- `lt_we` with `lt_addr` and `lt_wdata`, the pair of v and addr with v the top bit. -/
  | writeLabel (id : BitVec 7) (data : BitVec 11)
  /-- A new value on `prog_len`. -/
  | setProgLen (len : BitVec 10)
  /-- One assertion of `step`. -/
  | requestStep
deriving DecidableEq, Repr

/-- `rst` asserted: every piece of state takes its value of R301, the image and the parameters stay (R300, R301). -/
def State.assertReset (s : State) : State :=
  State.resetValues s.params s.imem s.progLen s.lt true

/-- `rst` deasserted: the block goes on from the state it holds (R300). -/
def State.releaseReset (s : State) : State := { s with rst := false }

/-- The 11-bit `lt_wdata` as a label entry (R38, R45). -/
def labelEntryOfBits (data : BitVec 11) : LabelEntry where
  v := data.getLsbD 10
  addr := data.extractLsb' 0 10

/-- A host write of IMEM: ignored unless `rst` is asserted (R304); IMEM has no word at IMEM_DEPTH or above (R40). -/
def hostWriteImem (addr : BitVec 10) (data : InstrWord) (s : State) : Result :=
  if s.rst then
    if addr.toNat < s.params.imemDepth.val then .next { s with imem := cellSet addr.toNat data s.imem }
    else .fault (.imemWriteOutside addr)
  else .next s

/-- A host write of a label entry: ignored unless `rst` is asserted (R304); there is no entry at LABEL_CAP or
above (R38). -/
def hostWriteLabel (id : BitVec 7) (data : BitVec 11) (s : State) : Result :=
  if s.rst then
    if id.toNat < s.params.labelCap.val then .next { s with lt := cellSet id.toNat (labelEntryOfBits data) s.lt }
    else .fault (.labelWriteOutside id)
  else .next s

/-- A host write of PROG_LEN: ignored unless `rst` is asserted (R37, R304). -/
def hostSetProgLen (len : BitVec 10) (s : State) : Result :=
  if s.rst then .next { s with progLen := some len } else .next s

/-- The block's answer to one host event. -/
def hostEvent (e : HostEvent) (s : State) : Result :=
  match e with
  | .assertRst => .next s.assertReset
  | .releaseRst => .next s.releaseReset
  | .writeImem addr data => hostWriteImem addr data s
  | .writeLabel id data => hostWriteLabel id data s
  | .setProgLen len => hostSetProgLen len s
  | .requestStep => step s

/-- A sequence of host events, up to the first that does not answer a next state. -/
def hostEvents : List HostEvent → State → Result
  | [], s => .next s
  | e :: rest, s =>
    match hostEvent e s with
    | .next t => hostEvents rest t
    | .fault r => .fault r
    | .refused r => .refused r

/-! ### Outputs -/

/-- The `status` port (R32, R45). -/
def State.statusPort (s : State) : BitVec 2 := s.status.code

/-- The `cause` port (R33, R45). -/
def State.causePort (s : State) : BitVec 4 := s.cause.code

/-- The 10-bit `fault_pc` port (R34, R45). -/
def State.faultPcPort (s : State) : BitVec 10 := BitVec.ofNat 10 s.faultPc

/-- The print port's events of the step from `before` to `after` (R46): what OUT gained. -/
def printEvents (before after : State) : List (Reg × Word) := after.out.drop before.out.length

/-! ### Debug read ports (R48) -/

/-- The debug register port: x[a] for a below NREG and 0 above. Its results are defined only while STATUS is HALTED or
FAULTED; otherwise it is `free`, any value at all (U18; notes/assumptions/8.md). It has no side effect. -/
def State.debugReg (free : Word) (a : BitVec 4) (s : State) : Word :=
  if s.status = .running then free
  else
    match regOfField s.params.nreg a with
    | some r => s.reg r
    | none => 0

/-- The debug data-memory port: DMEM[a] for a below DMEM_DEPTH and 0 above; `free` while RUNNING, as for the registers. -/
def State.debugMem (free : Word) (a : BitVec 10) (s : State) : Word :=
  if s.status = .running then free
  else if a.toNat < s.params.dmemDepth then s.mem a.toNat
  else 0

end Sys2Proof.Machine
end

