-- ==== Sys2Proof/Machine/Assembler.lean ====
section
/-! DEFINITION. The host assembler of R100 to R119: program text to instruction words, label table and length, and the
boot sequence that loads them (R303). It is host software, outside the block (R6): its errors are no faults. -/

namespace Sys2Proof.Machine

/-- The load errors of the assembler (R119). UsageError and FileOpenError belong to the host's command line and
files, which R6 leaves out. -/
inductive LoadError where
  | parseError
  | capacityExceeded
deriving DecidableEq, Repr

/-! ### Lines and tokens -/

/-- A separator character: space, tab, carriage return or comma (R101). -/
def isSeparator (c : Char) : Bool := c = ' ' || c = '\t' || c = '\r' || c = ','

/-- The text split at each newline (R101). -/
def splitLines : List Char → List (List Char)
  | [] => [[]]
  | c :: cs =>
    if c = '\n' then [] :: splitLines cs
    else
      match splitLines cs with
      | [] => [[c]]
      | line :: rest => (c :: line) :: rest

/-- The tokens of the rest of a line, `current` (reversed) being the token under way (R107). -/
def tokensFrom (current : List Char) : List Char → List (List Char)
  | [] => if current.isEmpty then [] else [current.reverse]
  | c :: cs =>
    if isSeparator c then
      if current.isEmpty then tokensFrom [] cs else current.reverse :: tokensFrom [] cs
    else tokensFrom (c :: current) cs

/-- The maximal runs of characters that are no separators (R107). -/
def tokens (line : List Char) : List (List Char) := tokensFrom [] line

/-- The text before and after the first ':' (R102, R103). -/
def splitColon : List Char → Option (List Char × List Char)
  | [] => none
  | c :: cs =>
    if c = ':' then some ([], cs)
    else
      match splitColon cs with
      | some (before, after) => some (c :: before, after)
      | none => none

/-- A line that is not skipped (R102). -/
inductive SourceLine where
  | label (name : List Char)
  | instruction (mnemonic : List Char) (operands : List (List Char))
deriving DecidableEq, Repr

/-- A line's reading: skipped if it has only separators (R101); with a ':' a label definition, whose name is the one
token before it, nothing but separators after it (R103); else an instruction of at most three tokens (R107). -/
def parseLine (line : List Char) : Except LoadError (Option SourceLine) :=
  match splitColon line with
  | some (before, after) =>
    match tokens before, tokens after with
    | [name], [] => .ok (some (.label name))
    | _, _ => .error .parseError
  | none =>
    match tokens line with
    | [] => .ok none
    | mnemonic :: operands =>
      if operands.length ≤ 2 then .ok (some (.instruction mnemonic operands)) else .error .parseError

/-- The lines that are not skipped, in file order (R101). -/
def parseLines : List (List Char) → Except LoadError (List SourceLine)
  | [] => .ok []
  | line :: rest =>
    match parseLine line, parseLines rest with
    | .error e, _ => .error e
    | .ok _, .error e => .error e
    | .ok none, .ok parsed => .ok parsed
    | .ok (some l), .ok parsed => .ok (l :: parsed)

/-! ### Labels -/

/-- The labels in the order of their definitions, each with the number of instructions emitted before it
(R104, R105); `emitted` counts those before the given lines. -/
def collectLabels (emitted : Nat) : List SourceLine → List (List Char × Nat)
  | [] => []
  | .label name :: rest => (name, emitted) :: collectLabels emitted rest
  | .instruction _ _ :: rest => collectLabels (emitted + 1) rest

/-- No name is defined twice (R106). -/
def namesDistinct : List (List Char × Nat) → Bool
  | [] => true
  | (name, _) :: rest => rest.all (fun l => decide (l.1 ≠ name)) && namesDistinct rest

/-- The position of a label's name in the definitions, which is its id, or 0xFFFFFFFF if it is not defined (R113). -/
def labelIdFrom (name : List Char) (id : Nat) : List (List Char × Nat) → Nat
  | [] => 0xFFFFFFFF
  | (defined, _) :: rest => if defined = name then id else labelIdFrom name (id + 1) rest

/-! ### Operand tokens -/

/-- A decimal digit's value. -/
def digitValue (c : Char) : Option Nat :=
  if 48 ≤ c.toNat ∧ c.toNat ≤ 57 then some (c.toNat - 48) else none

/-- A register token: 'R' and one decimal digit (R110) that names one of the `n` registers. -/
def parseReg (n : RegCount) : List Char → Option Reg
  | ['R', d] =>
    match digitValue d with
    | some k => if h : k < n.val then some ⟨k, by omega⟩ else none
    | none => none
  | _ => none

/-- The value of further decimal digits after the value so far. -/
def parseDigits (value : Nat) : List Char → Option Nat
  | [] => some value
  | c :: cs =>
    match digitValue c with
    | some d => parseDigits (10 * value + d) cs
    | none => none

/-- One or more decimal digits, leading zeros allowed (R111). -/
def parseNat : List Char → Option Nat
  | [] => none
  | c :: cs => parseDigits 0 (c :: cs)

/-- An immediate token: an optional sign and decimal digits, the value in [-2^31, 2^31-1] (R111). -/
def parseImm (token : List Char) : Option Int :=
  let value : Option Int :=
    match token with
    | '-' :: digits => (parseNat digits).map (fun n => -(n : Int))
    | '+' :: digits => (parseNat digits).map (fun n => (n : Int))
    | digits => (parseNat digits).map (fun n => (n : Int))
  value.filter fitsSigned

/-! ### Instructions -/

/-- A mnemonic's operand shape (R109) with the instruction it makes. -/
inductive Shape where
  | regImm (mk : Reg → Int → Instr)
  | regReg (mk : Reg → Reg → Instr)
  | reg (mk : Reg → Instr)
  | label (mk : Nat → Instr)

/-- The 19 mnemonics and their shapes (R88, R109). -/
def mnemonicShapes : List (String × Shape) :=
  [("LOAD", .regImm (fun rd n => .load rd (bits32 n))), ("STORE", .regImm .store), ("LOADM", .regImm .loadm),
   ("ADD", .regReg .add), ("SUB", .regReg .sub), ("MUL", .regReg .mul), ("DIV", .regReg .div), ("MOV", .regReg .mov),
   ("CMP", .regReg .cmp), ("JMP", .label .jmp), ("JNE", .label .jne), ("JEQ", .label .jeq), ("JGT", .label .jgt),
   ("JLT", .label .jlt), ("PRINT", .reg .print), ("AND", .regReg .and), ("OR", .regReg .or), ("XOR", .regReg .xor),
   ("NOT", .reg .not)]

/-- The shape of a mnemonic, by exact comparison, case counting (R108). -/
def shapeOf (mnemonic : List Char) : List (String × Shape) → Option Shape
  | [] => none
  | (name, shape) :: rest => if name.toList = mnemonic then some shape else shapeOf mnemonic rest

/-- The instruction of a known mnemonic's operand tokens, if they match its shape (R109). -/
def parseOperands (n : RegCount) (labels : List (List Char × Nat)) : Shape → List (List Char) → Option Instr
  | .regImm mk, [t, u] =>
    match parseReg n t, parseImm u with
    | some rd, some v => some (mk rd v)
    | _, _ => none
  | .regReg mk, [t, u] =>
    match parseReg n t, parseReg n u with
    | some rd, some rs => some (mk rd rs)
    | _, _ => none
  | .reg mk, [t] => (parseReg n t).map mk
  | .label mk, [t] => some (mk (labelIdFrom t 0 labels))
  | _, _ => none

/-- The word of an instruction line: word 0 for an unknown mnemonic, its operands not examined (R108); else the
encoding of R116. -/
def assembleInstruction (n : RegCount) (labels : List (List Char × Nat)) (mnemonic : List Char)
    (operands : List (List Char)) :
    Except LoadError InstrWord :=
  match shapeOf mnemonic mnemonicShapes with
  | none => .ok 0
  | some shape =>
    match parseOperands n labels shape operands with
    | some i => .ok (encode i)
    | none => .error .parseError

/-- The words of the instruction lines, in order (R104, R116). -/
def assembleLines (n : RegCount) (labels : List (List Char × Nat)) :
    List SourceLine → Except LoadError (List InstrWord)
  | [] => .ok []
  | .label _ :: rest => assembleLines n labels rest
  | .instruction mnemonic operands :: rest =>
    match assembleInstruction n labels mnemonic operands, assembleLines n labels rest with
    | .error e, _ => .error e
    | .ok _, .error e => .error e
    | .ok w, .ok words => .ok (w :: words)

/-- A program that has loaded: its words in order, and the labels' addresses by id (R113, R116). -/
structure Program where
  words : List InstrWord
  labels : List Nat
deriving DecidableEq, Repr

/-- The assembler (R100) for a machine with the given capacities: text to program, or the load error.
Where a text has several errors the spec does not say which is reported; a parse error comes first here (notes/assumptions/11.md). -/
def assemble (params : Params) (text : List Char) : Except LoadError Program :=
  match parseLines (splitLines text) with
  | .error e => .error e
  | .ok lines =>
    let labels := collectLabels 0 lines
    if namesDistinct labels then
      match assembleLines params.nreg labels lines with
      | .error e => .error e
      | .ok words =>
        if words.length ≤ params.imemDepth.val ∧ labels.length ≤ params.labelCap.val then
          .ok { words := words, labels := labels.map Prod.snd }
        else .error .capacityExceeded
    else .error .parseError

/-! ### Loading (R114, R303) -/

/-- `lt_wdata` for label `id`: v = 1 and the address of a defined label, 0 otherwise (R114). -/
def labelBits (labels : List Nat) (id : Nat) : BitVec 11 :=
  match labels[id]? with
  | some addr => (1 : BitVec 1) ++ BitVec.ofNat 10 addr
  | none => 0

/-- The host's writes of IMEM[k], IMEM[k+1], … -/
def imemWrites (k : Nat) : List InstrWord → List HostEvent
  | [] => []
  | w :: rest => .writeImem (BitVec.ofNat 10 k) w :: imemWrites (k + 1) rest

/-- The boot sequence of R303: reset asserted, the words, all LABEL_CAP label entries and PROG_LEN written,
reset released. -/
def bootEvents (params : Params) (p : Program) : List HostEvent :=
  .assertRst :: imemWrites 0 p.words
    ++ (List.range params.labelCap.val).map (fun id => .writeLabel (BitVec.ofNat 7 id) (labelBits p.labels id))
    ++ [.setProgLen (BitVec.ofNat 10 p.words.length), .releaseRst]

end Sys2Proof.Machine
end

