-- ==== Sys2Proof/Machine/HostText.lean ====
section
/-! DEFINITION. What the host prints about a run (R306, R308) and the canonical spelling of a word (R118): host
software, outside the block (R6). -/

namespace Sys2Proof.Machine

/-- A value as the host prints it: signed decimal (R306). -/
def showWord (v : Word) : String := toString (sint v)

/-- A register's name. -/
def showReg (r : Reg) : String := "R" ++ toString r.val

/-- The line of one PRINT event (R308). -/
def printLine (event : Reg × Word) : String := "Value in " ++ showReg event.1 ++ ": " ++ showWord event.2

/-- The lines of the halt dump, one per register in index order (R232, R308): ten with the default NREG. -/
def dumpLines (s : State) : List String :=
  ((List.finRange 10).take s.params.nreg.val).map (fun r => showReg r ++ " = " ++ showWord (s.reg r))

/-- Normal output: the PRINT lines in event order, then the dump if the run halted; no dump after a fault (R232). -/
def hostOutput (s : State) : List String :=
  s.out.map printLine ++ (if s.status = .halted then dumpLines s else [])

/-- The diagnostic stream: one error line after a fault, whose wording the spec leaves to the host (R308, U24). -/
def hostDiagnostics (message : String) (s : State) : List String :=
  if s.status = .faulted then ["Error: " ++ message] else []

/-- The exit code of a run that has ended: 0 on a normal halt, 1 on a fault (R275, R308); a run that has not ended
has none (R140). -/
def exitCode (s : State) : Option Nat :=
  match s.status with
  | .running => none
  | .halted => some 0
  | .faulted => some 1

/-- The exit code of a program that does not load (R119): 1 for each load error. -/
def loadErrorExitCode : LoadError → Nat
  | .parseError => 1
  | .capacityExceeded => 1

/-- The exit code of the whole job: that of the load error, or else that of the run, `s` being its state. -/
def jobExitCode (loaded : Except LoadError Program) (s : State) : Option Nat :=
  match loaded with
  | .error e => some (loadErrorExitCode e)
  | .ok _ => exitCode s

/-! ### Canonical spelling (R118) -/

/-- The lowest `n` hexadecimal digits of a number, most significant first. -/
def hexDigits : Nat → Nat → String
  | 0, _ => ""
  | n + 1, v =>
    hexDigits n (v / 16) ++ String.singleton (Nat.digitChar (v % 16)).toUpper

/-- A label: its name if known, else L and its id in decimal (R118). -/
def showLabel (names : Nat → Option String) (id : Nat) : String :=
  match names id with
  | some name => name
  | none => "L" ++ toString id

/-- An instruction's canonical spelling (R118). -/
def showInstr (names : Nat → Option String) : Instr → String
  | .load rd imm => "LOAD " ++ showReg rd ++ ", " ++ showWord imm
  | .store rd addr => "STORE " ++ showReg rd ++ ", " ++ toString addr
  | .loadm rd addr => "LOADM " ++ showReg rd ++ ", " ++ toString addr
  | .add rd rs => "ADD " ++ showReg rd ++ ", " ++ showReg rs
  | .sub rd rs => "SUB " ++ showReg rd ++ ", " ++ showReg rs
  | .mul rd rs => "MUL " ++ showReg rd ++ ", " ++ showReg rs
  | .div rd rs => "DIV " ++ showReg rd ++ ", " ++ showReg rs
  | .mov rd rs => "MOV " ++ showReg rd ++ ", " ++ showReg rs
  | .cmp rd rs => "CMP " ++ showReg rd ++ ", " ++ showReg rs
  | .jmp id => "JMP " ++ showLabel names id
  | .jne id => "JNE " ++ showLabel names id
  | .jeq id => "JEQ " ++ showLabel names id
  | .jgt id => "JGT " ++ showLabel names id
  | .jlt id => "JLT " ++ showLabel names id
  | .print rd => "PRINT " ++ showReg rd
  | .and rd rs => "AND " ++ showReg rd ++ ", " ++ showReg rs
  | .or rd rs => "OR " ++ showReg rd ++ ", " ++ showReg rs
  | .xor rd rs => "XOR " ++ showReg rd ++ ", " ++ showReg rs
  | .not rd => "NOT " ++ showReg rd

/-- A word's canonical spelling: its instruction's, or `.word` and 16 digits where decode refuses it (R118). -/
def showWordSpelling (n : RegCount) (names : Nat → Option String) (w : InstrWord) : String :=
  match decode n w with
  | .ok i => showInstr names i
  | .error _ => ".word 0x" ++ hexDigits 16 w.toNat

end Sys2Proof.Machine
end

