-- ==== Sys2Proof/Safety.lean ====
section
/-! DEFINITION. What statements about this machine are made of: the effects an instruction can have, each with its
whole frame; the tables of R23, R82 and R208 and the checks of R89 written a second time; and the machine's invariant. -/

namespace Sys2Proof.Machine

/-! ### Outcomes -/

/-- The next state an outcome answers, if it does. -/
def nextState : Result → Option State
  | .next t => some t
  | .fault _ => none
  | .refused _ => none

/-! ### What stays, from a state `s` to a state `t` -/

/-- STATUS and the fault registers are the same (R32 to R36). -/
def sameRunRecord (s t : State) : Prop :=
  t.status = s.status ∧ t.cause = s.cause ∧ t.faultPc = s.faultPc ∧ t.faultWord = s.faultWord ∧
    t.faultInfo = s.faultInfo

/-- The image, the parameters and the reset input are the same (R9). -/
def sameConfiguration (s t : State) : Prop :=
  t.imem = s.imem ∧ t.progLen = s.progLen ∧ t.lt = s.lt ∧ t.params = s.params ∧ t.rst = s.rst

/-- Every register is the same. -/
def sameRegisters (s t : State) : Prop := ∀ q, t.reg q = s.reg q

/-- Every data-memory word is the same. -/
def sameMemory (s t : State) : Prop := ∀ a, t.mem a = s.mem a

/-- Everything but the image is the same: the state of R20, the parameters and the reset input. -/
def sameOutsideImage (s t : State) : Prop :=
  sameRegisters s t ∧ t.flag = s.flag ∧ t.pc = s.pc ∧ sameMemory s t ∧ sameRunRecord s t ∧ t.out = s.out ∧
    t.params = s.params ∧ t.rst = s.rst

/-! ### The effects of the instructions, each with its frame -/

/-- `rd` holds `v`, the pc has advanced, nothing else has changed. -/
def registerWritten (rd : Reg) (v : Word) (s t : State) : Prop :=
  t.reg rd = v ∧ (∀ q, q ≠ rd → t.reg q = s.reg q) ∧ t.pc = s.pc + 1 ∧ t.flag = s.flag ∧ sameMemory s t ∧
    t.out = s.out ∧ sameRunRecord s t ∧ sameConfiguration s t

/-- Data-memory index `k` holds `v`, the pc has advanced, nothing else has changed. -/
def wordStored (k : Nat) (v : Word) (s t : State) : Prop :=
  t.mem k = v ∧ (∀ a, a ≠ k → t.mem a = s.mem a) ∧ t.pc = s.pc + 1 ∧ t.flag = s.flag ∧ sameRegisters s t ∧
    t.out = s.out ∧ sameRunRecord s t ∧ sameConfiguration s t

/-- The flag is `f`, the pc has advanced, nothing else has changed. -/
def flagWritten (f : Flag) (s t : State) : Prop :=
  t.flag = f ∧ t.pc = s.pc + 1 ∧ sameRegisters s t ∧ sameMemory s t ∧ t.out = s.out ∧ sameRunRecord s t ∧
    sameConfiguration s t

/-- One event (d, v) is appended to OUT, the pc has advanced, nothing else has changed. -/
def eventEmitted (d : Reg) (v : Word) (s t : State) : Prop :=
  t.out = s.out ++ [(d, v)] ∧ t.pc = s.pc + 1 ∧ t.flag = s.flag ∧ sameRegisters s t ∧ sameMemory s t ∧
    sameRunRecord s t ∧ sameConfiguration s t

/-- The pc is `target`, nothing else has changed (R209). -/
def pcWritten (target : Nat) (s t : State) : Prop :=
  t.pc = target ∧ t.flag = s.flag ∧ sameRegisters s t ∧ sameMemory s t ∧ t.out = s.out ∧ sameRunRecord s t ∧
    sameConfiguration s t

/-- The fault entry of R270 with cause `c`, information `info` and the faulting word `w`; nothing else has changed. -/
def faultTaken (c : Cause) (info : Word) (w : InstrWord) (s t : State) : Prop :=
  t.status = .faulted ∧ t.cause = c ∧ t.faultPc = s.pc ∧ t.faultWord = w ∧ t.faultInfo = info ∧ t.pc = s.pc ∧
    t.flag = s.flag ∧ sameRegisters s t ∧ sameMemory s t ∧ t.out = s.out ∧ sameConfiguration s t

/-! ### Outcomes that have an effect -/

/-- The outcome `r` is a next state in which the fault has been taken, whatever word stands at the pc. -/
def answersFault (r : Result) (c : Cause) (info : Word) (s : State) : Prop :=
  ∀ w, s.wordAtPc = some w → ∃ t, r = .next t ∧ faultTaken c info w s t

/-- Label `id` names a valid entry with address `addr` (R202). -/
def validLabel (s : State) (id : Nat) (addr : BitVec 10) : Prop :=
  id < s.params.labelCap.val ∧ cellAt id s.lt = some { v := true, addr := addr }

/-- Label `id` names no valid entry: LABEL_CAP or more, or v = 0 (R202). -/
def undefinedLabel (s : State) (id : Nat) : Prop :=
  s.params.labelCap.val ≤ id ∨ ∃ addr, cellAt id s.lt = some { v := false, addr := addr }

/-- The outcome `r` is that of a taken jump: the label's address goes to the pc, or UndefinedLabel is taken (R202). -/
def answersJump (r : Result) (id : Nat) (s : State) : Prop :=
  (∀ addr, validLabel s id addr → ∃ t, r = .next t ∧ pcWritten addr.toNat s t) ∧
    (undefinedLabel s id → answersFault r .undefinedLabel (BitVec.ofNat 32 id) s)

/-! ### Words and tables of the spec -/

/-- The fields of R81 of a word, z zero. -/
def hasFields (w : InstrWord) (opcode : BitVec 8) (rd rs : Nat) (imm : BitVec 32) : Prop :=
  wordOpcode w = opcode ∧ (wordRd w).toNat = rd ∧ (wordRs w).toNat = rs ∧ wordZ w = 0 ∧ wordImm w = imm

/-- The register an instruction writes, if it is one of the eleven that write their first operand (R23). -/
def destination : Instr → Option Reg
  | .load rd _ => some rd
  | .store _ _ => none
  | .loadm rd _ => some rd
  | .add rd _ => some rd
  | .sub rd _ => some rd
  | .mul rd _ => some rd
  | .div rd _ => some rd
  | .mov rd _ => some rd
  | .cmp _ _ => none
  | .jmp _ => none
  | .jne _ => none
  | .jeq _ => none
  | .jgt _ => none
  | .jlt _ => none
  | .print _ => none
  | .and rd _ => some rd
  | .or rd _ => some rd
  | .xor rd _ => some rd
  | .not rd => some rd

/-- The label a jump resolves, if with this flag it is taken: the table of R208. -/
def takenLabel : Instr → Flag → Option Nat
  | .jmp id, _ => some id
  | .jne id, .less => some id
  | .jne id, .greater => some id
  | .jeq id, .equal => some id
  | .jgt id, .greater => some id
  | .jlt id, .less => some id
  | _, _ => none

/-- JNE, JEQ, JGT and JLT, the readers of the flag (R29). -/
def readsFlag : Instr → Bool
  | .jne _ => true
  | .jeq _ => true
  | .jgt _ => true
  | .jlt _ => true
  | _ => false

/-- LOADM, the reader of data memory (R62). -/
def readsMemory : Instr → Bool
  | .loadm _ _ => true
  | _ => false

/-- The formats of R82. -/
inductive Format where
  | RI
  | RA
  | RR
  | R1
  | L
deriving DecidableEq, Repr

/-- FORMAT(op): the opcode map of R88, none for an opcode outside 0x01..0x13. -/
def formatOf (opcode : Nat) : Option Format :=
  [none, some .RI, some .RA, some .RA, some .RR, some .RR, some .RR, some .RR, some .RR, some .RR, some .L, some .L,
    some .L, some .L, some .L, some .R1, some .RR, some .RR, some .RR, some .R1].getD opcode none

/-- The checks of R89 on a word, in their order, as its pseudocode writes them, 10 being NREG (R7): the first
that fails. -/
def firstDecodeFault (n : RegCount) (w : InstrWord) : Option DecodeFault :=
  match formatOf (wordOpcode w).toNat with
  | none => some (.unknownInstruction (wordOpcode w))
  | some f =>
    if f ∈ [Format.RI, .RA, .RR, .R1] ∧ n.val ≤ (wordRd w).toNat then some (.illegalInstruction .rd)
    else if f = .L ∧ wordRd w ≠ 0 then some (.illegalInstruction .rd)
    else if f = .RR ∧ n.val ≤ (wordRs w).toNat then some (.illegalInstruction .rs)
    else if f ≠ .RR ∧ wordRs w ≠ 0 then some (.illegalInstruction .rs)
    else if wordZ w ≠ 0 then some (.illegalInstruction .z)
    else if f ∈ [Format.RR, .R1] ∧ wordImm w ≠ 0 then some (.illegalInstruction .imm)
    else none

/-! ### States -/

/-- The step of this state has an instruction to fetch (R130): `rst` low, RUNNING, the image accepted, pc < len. -/
def State.fetching (s : State) : Prop :=
  s.rst = false ∧ s.status = .running ∧ s.imageProblem = none ∧ s.pc < s.len

/-- The host-written memories of the image lie inside their capacities, in their one form (R38, R40). -/
def State.imageInBounds (s : State) : Prop :=
  risingFrom 0 s.imem = true ∧ (∀ c ∈ s.imem, c.1 < s.params.imemDepth.val) ∧
    risingFrom 0 s.lt = true ∧ (∀ c ∈ s.lt, c.1 < s.params.labelCap.val)

/-- The machine has no more than its NREG registers: the other places hold 0, and no PRINT event names one
(R21, R42). -/
def State.registersInRange (s : State) : Prop :=
  (∀ r : Reg, registerExists s.params.nreg r = false → s.reg r = 0) ∧
    ∀ e ∈ s.out, registerExists s.params.nreg e.1 = true

/-- The invariant of the machine: data memory in its one form; the image in bounds; no registers but NREG (R21); the
pc in [0, len] (R25); CAUSE is 0 exactly while no fault has been taken (R33); a halted pc is len (R132); after a fault
FAULT_PC is the pc and FAULT_WORD the word there (R34, R35, R270); while `rst` is asserted the state is that of R301
(R300). -/
def State.Inv (s : State) : Prop :=
  Memory.wf s.params.dmemDepth s.dmem = true ∧ s.imageInBounds ∧ s.registersInRange ∧ s.pc ≤ s.len ∧
    (s.cause = .none ↔ s.status ≠ .faulted) ∧
    (s.status = .halted → s.pc = s.len) ∧
    (s.status = .faulted → s.faultPc = s.pc ∧ s.wordAtPc = some s.faultWord ∧ s.pc < s.len) ∧
    (s.rst = true → s.assertReset = s)

end Sys2Proof.Machine
end

