-- ==== Sys2Proof/Certificates/Slice0/Obligations.lean ====
section
/-! DEFINITION. The statements for the provers, each from the numbered rules its docstring names. An effect's predicate
(registerWritten, wordStored, flagWritten, eventEmitted, pcWritten, faultTaken) holds the whole frame: everything it does
not name is unchanged. The capacities are the machine's parameters (R7, R8), whose defaults are the numbers the rules
write (ParametersAreFixed). -/

open Sys2Proof Sys2Proof.Machine

/-! ### The instructions: encoding, completion, effect, faults and frame -/

/-- R150: LOAD writes its 32-bit pattern, never faults at execution, and a PRINT after it emits exactly that
pattern. -/
def Obligations.LoadWritesItsImmediate : Prop :=
  ∀ (rd : Reg) (imm : Word) (s : State),
    hasFields (encode (.load rd imm)) 0x01 rd.val 0 imm ∧
    ∃ t, exec (.load rd imm) s = .next t ∧ registerWritten rd imm s t ∧
      ∃ u, exec (.print rd) t = .next u ∧ u.out = s.out ++ [(rd, imm)]

/-- R151, R265: STORE writes the register's word at the address in [0, DMEM_DEPTH), and takes MemoryOutOfBounds with
the address outside it. -/
def Obligations.StoreWritesOneWordOrFaults : Prop :=
  ∀ (rd : Reg) (addr : Int) (s : State),
    hasFields (encode (.store rd addr)) 0x02 rd.val 0 (BitVec.ofInt 32 addr) ∧
    (0 ≤ addr → addr < s.params.dmemDepth →
      ∃ t, exec (.store rd addr) s = .next t ∧ wordStored addr.toNat (s.reg rd) s t) ∧
    (addr < 0 ∨ s.params.dmemDepth ≤ addr →
      answersFault (exec (.store rd addr) s) .memoryOutOfBounds (BitVec.ofInt 32 addr) s)

/-- R152, R265: LOADM reads the whole word at the address in [0, DMEM_DEPTH), and takes MemoryOutOfBounds with the
address outside it. -/
def Obligations.LoadmReadsOneWordOrFaults : Prop :=
  ∀ (rd : Reg) (addr : Int) (s : State),
    hasFields (encode (.loadm rd addr)) 0x03 rd.val 0 (BitVec.ofInt 32 addr) ∧
    (0 ≤ addr → addr < s.params.dmemDepth →
      ∃ t, exec (.loadm rd addr) s = .next t ∧ registerWritten rd (s.mem addr.toNat) s t) ∧
    (addr < 0 ∨ s.params.dmemDepth ≤ addr →
      answersFault (exec (.loadm rd addr) s) .memoryOutOfBounds (BitVec.ofInt 32 addr) s)

/-- R170, R171: ADD writes bits32 of the exact sum where it fits or OVF_MODE is wrap, and takes ArithmeticOverflow(0)
otherwise. -/
def Obligations.AddWritesTheSumOrFaults : Prop :=
  ∀ (rd rs : Reg) (s : State) (r : Int), r = (s.reg rd).toInt + (s.reg rs).toInt →
    hasFields (encode (.add rd rs)) 0x04 rd.val rs.val 0 ∧
    ((-2147483648 ≤ r ∧ r ≤ 2147483647) ∨ s.params.ovfMode = .wrap →
      ∃ t, exec (.add rd rs) s = .next t ∧ registerWritten rd (BitVec.ofInt 32 r) s t) ∧
    (¬ (-2147483648 ≤ r ∧ r ≤ 2147483647) → s.params.ovfMode = .fault →
      answersFault (exec (.add rd rs) s) .arithmeticOverflow 0 s)

/-- R170, R172: SUB, as ADD with the exact difference. -/
def Obligations.SubWritesTheDifferenceOrFaults : Prop :=
  ∀ (rd rs : Reg) (s : State) (r : Int), r = (s.reg rd).toInt - (s.reg rs).toInt →
    hasFields (encode (.sub rd rs)) 0x05 rd.val rs.val 0 ∧
    ((-2147483648 ≤ r ∧ r ≤ 2147483647) ∨ s.params.ovfMode = .wrap →
      ∃ t, exec (.sub rd rs) s = .next t ∧ registerWritten rd (BitVec.ofInt 32 r) s t) ∧
    (¬ (-2147483648 ≤ r ∧ r ≤ 2147483647) → s.params.ovfMode = .fault →
      answersFault (exec (.sub rd rs) s) .arithmeticOverflow 0 s)

/-- R170, R173: MUL, as ADD with the exact product, of which the low 32 bits are written. -/
def Obligations.MulWritesTheLowProductOrFaults : Prop :=
  ∀ (rd rs : Reg) (s : State) (r : Int), r = (s.reg rd).toInt * (s.reg rs).toInt →
    hasFields (encode (.mul rd rs)) 0x06 rd.val rs.val 0 ∧
    ((-2147483648 ≤ r ∧ r ≤ 2147483647) ∨ s.params.ovfMode = .wrap →
      ∃ t, exec (.mul rd rs) s = .next t ∧ registerWritten rd (BitVec.ofInt 32 r) s t) ∧
    (¬ (-2147483648 ≤ r ∧ r ≤ 2147483647) → s.params.ovfMode = .fault →
      answersFault (exec (.mul rd rs) s) .arithmeticOverflow 0 s)

/-- R174, R264, R266: DIV by zero takes DivisionByZero with the divisor's index; -2^31 by -1 is as DIV_OVF_MODE says;
every other quotient is written, rounded toward zero. -/
def Obligations.DivWritesTheQuotientOrFaults : Prop :=
  ∀ (rd rs : Reg) (s : State) (a b : Int), a = (s.reg rd).toInt → b = (s.reg rs).toInt →
    hasFields (encode (.div rd rs)) 0x07 rd.val rs.val 0 ∧
    (b = 0 → answersFault (exec (.div rd rs) s) .divisionByZero (BitVec.ofNat 32 rs.val) s) ∧
    (b ≠ 0 → ¬ (a = -2147483648 ∧ b = -1) →
      ∃ t, exec (.div rd rs) s = .next t ∧ registerWritten rd (BitVec.ofInt 32 (Int.tdiv a b)) s t) ∧
    (a = -2147483648 → b = -1 → s.params.divOvfMode = .fault →
      answersFault (exec (.div rd rs) s) .arithmeticOverflow 0 s) ∧
    (a = -2147483648 → b = -1 → s.params.divOvfMode = .wrap →
      ∃ t, exec (.div rd rs) s = .next t ∧ registerWritten rd 0x80000000 s t)

/-- R175: MOV copies the source register's pattern. -/
def Obligations.MovCopiesARegister : Prop :=
  ∀ (rd rs : Reg) (s : State),
    hasFields (encode (.mov rd rs)) 0x08 rd.val rs.val 0 ∧
    ∃ t, exec (.mov rd rs) s = .next t ∧ registerWritten rd (s.reg rs) s t

/-- R200: CMP always writes the flag, one of its three values by the signed order of the two registers. -/
def Obligations.CmpWritesTheFlag : Prop :=
  ∀ (ra rb : Reg) (s : State),
    hasFields (encode (.cmp ra rb)) 0x09 ra.val rb.val 0 ∧
    ∃ t, exec (.cmp ra rb) s = .next t ∧ flagWritten t.flag s t ∧
      (t.flag = .equal ↔ (s.reg ra).toInt = (s.reg rb).toInt) ∧
      (t.flag = .greater ↔ (s.reg rb).toInt < (s.reg ra).toInt) ∧
      (t.flag = .less ↔ (s.reg ra).toInt < (s.reg rb).toInt)

/-- R202, R203: JMP goes to its label's address, whatever the flag, or takes UndefinedLabel. -/
def Obligations.JmpGoesToItsLabel : Prop :=
  ∀ (id : Nat) (s : State),
    hasFields (encode (.jmp id)) 0x0A 0 0 (BitVec.ofNat 32 id) ∧ answersJump (exec (.jmp id) s) id s

/-- R202, R204: JNE jumps when the flag is LESS or GREATER, and otherwise advances without looking at its label. -/
def Obligations.JneJumpsUnlessEqual : Prop :=
  ∀ (id : Nat) (s : State),
    hasFields (encode (.jne id)) 0x0B 0 0 (BitVec.ofNat 32 id) ∧
    (s.flag ≠ .equal → answersJump (exec (.jne id) s) id s) ∧
    (s.flag = .equal → ∃ t, exec (.jne id) s = .next t ∧ pcWritten (s.pc + 1) s t)

/-- R202, R205: JEQ jumps when the flag is EQUAL, and otherwise advances without looking at its label. -/
def Obligations.JeqJumpsIfEqual : Prop :=
  ∀ (id : Nat) (s : State),
    hasFields (encode (.jeq id)) 0x0C 0 0 (BitVec.ofNat 32 id) ∧
    (s.flag = .equal → answersJump (exec (.jeq id) s) id s) ∧
    (s.flag ≠ .equal → ∃ t, exec (.jeq id) s = .next t ∧ pcWritten (s.pc + 1) s t)

/-- R202, R206: JGT jumps when the flag is GREATER, and otherwise advances without looking at its label. -/
def Obligations.JgtJumpsIfGreater : Prop :=
  ∀ (id : Nat) (s : State),
    hasFields (encode (.jgt id)) 0x0D 0 0 (BitVec.ofNat 32 id) ∧
    (s.flag = .greater → answersJump (exec (.jgt id) s) id s) ∧
    (s.flag ≠ .greater → ∃ t, exec (.jgt id) s = .next t ∧ pcWritten (s.pc + 1) s t)

/-- R202, R207: JLT jumps when the flag is LESS, and otherwise advances without looking at its label. -/
def Obligations.JltJumpsIfLess : Prop :=
  ∀ (id : Nat) (s : State),
    hasFields (encode (.jlt id)) 0x0E 0 0 (BitVec.ofNat 32 id) ∧
    (s.flag = .less → answersJump (exec (.jlt id) s) id s) ∧
    (s.flag ≠ .less → ∃ t, exec (.jlt id) s = .next t ∧ pcWritten (s.pc + 1) s t)

/-- R230: PRINT appends the event (rd, x[rd]) to OUT. -/
def Obligations.PrintEmitsOneEvent : Prop :=
  ∀ (rd : Reg) (s : State),
    hasFields (encode (.print rd)) 0x0F rd.val 0 0 ∧
    ∃ t, exec (.print rd) s = .next t ∧ eventEmitted rd (s.reg rd) s t

/-- R240: AND writes the bitwise and, bit by bit. -/
def Obligations.AndWritesTheConjunction : Prop :=
  ∀ (rd rs : Reg) (s : State),
    hasFields (encode (.and rd rs)) 0x10 rd.val rs.val 0 ∧
    ∃ t, exec (.and rd rs) s = .next t ∧ registerWritten rd (t.reg rd) s t ∧
      ∀ k, (t.reg rd).getLsbD k = ((s.reg rd).getLsbD k && (s.reg rs).getLsbD k)

/-- R241: OR writes the bitwise or, bit by bit. -/
def Obligations.OrWritesTheDisjunction : Prop :=
  ∀ (rd rs : Reg) (s : State),
    hasFields (encode (.or rd rs)) 0x11 rd.val rs.val 0 ∧
    ∃ t, exec (.or rd rs) s = .next t ∧ registerWritten rd (t.reg rd) s t ∧
      ∀ k, (t.reg rd).getLsbD k = ((s.reg rd).getLsbD k || (s.reg rs).getLsbD k)

/-- R242: XOR writes the bitwise exclusive or, bit by bit. -/
def Obligations.XorWritesTheDifference : Prop :=
  ∀ (rd rs : Reg) (s : State),
    hasFields (encode (.xor rd rs)) 0x12 rd.val rs.val 0 ∧
    ∃ t, exec (.xor rd rs) s = .next t ∧ registerWritten rd (t.reg rd) s t ∧
      ∀ k, (t.reg rd).getLsbD k = ((s.reg rd).getLsbD k).xor ((s.reg rs).getLsbD k)

/-- R243: NOT n gives -n-1 for every n, and twice restores the value. -/
def Obligations.NotWritesTheComplement : Prop :=
  ∀ (rd : Reg) (s : State),
    hasFields (encode (.not rd)) 0x13 rd.val 0 0 ∧
    ∃ t, exec (.not rd) s = .next t ∧ registerWritten rd (t.reg rd) s t ∧
      (t.reg rd).toInt = -(s.reg rd).toInt - 1 ∧
      ∃ u, exec (.not rd) t = .next u ∧ u.reg rd = s.reg rd

/-! ### Arithmetic, comparison and memory laws -/

/-- R11, R170: under OVF_MODE wrap the register's unsigned value after ADD, SUB and MUL is the exact result modulo
2^32, and its signed value is the exact result where that fits. -/
def Obligations.ArithmeticWrapsModuloTwoTo32 : Prop :=
  ∀ (rd rs : Reg) (s : State) (i : Instr) (r : Int), s.params.ovfMode = .wrap →
    (i, r) ∈ [(Instr.add rd rs, (s.reg rd).toInt + (s.reg rs).toInt),
              (Instr.sub rd rs, (s.reg rd).toInt - (s.reg rs).toInt),
              (Instr.mul rd rs, (s.reg rd).toInt * (s.reg rs).toInt)] →
    ∃ t, exec i s = .next t ∧ ((t.reg rd).toNat : Int) = r % 4294967296 ∧
      (-2147483648 ≤ r → r ≤ 2147483647 → (t.reg rd).toInt = r)

/-- R12, R174: the magnitude of DIV's quotient is the quotient of the magnitudes rounded down, and it is negative
exactly when the operands' signs differ and the dividend is not the smaller magnitude. -/
def Obligations.DivRoundsTowardZero : Prop :=
  ∀ (rd rs : Reg) (s : State) (a b : Int), a = (s.reg rd).toInt → b = (s.reg rs).toInt → b ≠ 0 →
    ¬ (a = -2147483648 ∧ b = -1) →
    ∃ t, exec (.div rd rs) s = .next t ∧ (t.reg rd).toInt.natAbs = a.natAbs / b.natAbs ∧
      ((t.reg rd).toInt < 0 ↔ ((a < 0 ∧ 0 < b) ∨ (0 < a ∧ b < 0)) ∧ b.natAbs ≤ a.natAbs)

/-- R201: CMP Ra,Rb then CMP Rb,Ra yields complementary flags; the comparison is on the signed values and nothing
overflows. -/
def Obligations.CompareIsAntisymmetric : Prop :=
  ∀ (ra rb : Reg) (s : State), ∃ t u, exec (.cmp ra rb) s = .next t ∧ exec (.cmp rb ra) t = .next u ∧
    (t.flag = .greater ↔ (s.reg rb).toInt < (s.reg ra).toInt) ∧
    (t.flag = .equal ↔ u.flag = .equal) ∧ (t.flag = .greater ↔ u.flag = .less) ∧
    (t.flag = .less ↔ u.flag = .greater)

/-- R71: a STORE and then a LOADM at the same address round-trips the value; a LOADM of another address gives what it
gave before the STORE. -/
def Obligations.StoreThenLoadmRoundTrips : Prop :=
  ∀ (rd re : Reg) (addr other : Int) (s : State), 0 ≤ addr → addr < s.params.dmemDepth → 0 ≤ other →
    other < s.params.dmemDepth →
    ∃ t u v, exec (.store rd addr) s = .next t ∧ exec (.loadm re addr) t = .next u ∧
      exec (.loadm re other) t = .next v ∧ u.reg re = s.reg rd ∧
      (other ≠ addr → v.reg re = s.mem other.toNat)

/-! ### Rules over every instruction -/

/-- R23: an instruction changes no register but the one it writes, and only the eleven of R23 write one. -/
def Obligations.OnlyDestinationsAreWritten : Prop :=
  ∀ (i : Instr) (s t : State) (q : Reg), exec i s = .next t → destination i ≠ some q → t.reg q = s.reg q

/-- R29: CMP is the only writer of the flag, and an instruction other than the four conditional jumps does the same
whatever the flag is: its next state differs in the flag alone. -/
def Obligations.FlagHasOneWriterAndFourReaders : Prop :=
  (∀ (i : Instr) (s t : State), exec i s = .next t → t.flag ≠ s.flag → ∃ ra rb, i = .cmp ra rb) ∧
  (∀ (i : Instr) (f : Flag) (s t : State), readsFlag i = false → exec i s = .next t →
    ∃ u, exec i (s.setFlag f) = .next u ∧ u.setFlag t.flag = t)

/-- R62: STORE is the only writer of data memory and LOADM its only reader: any other instruction does the same
whatever data memory holds, and so do the fetch and the decoding of a step. -/
def Obligations.DataMemoryHasOneWriterAndOneReader : Prop :=
  (∀ (i : Instr) (s t : State) (a : Nat), exec i s = .next t → t.mem a ≠ s.mem a → ∃ rd, i = .store rd (a : Int)) ∧
  (∀ (i : Instr) (m : List (Nat × Word)) (s t : State), readsMemory i = false → exec i s = .next t →
    ∃ u, exec i { s with dmem := m } = .next u ∧ { u with dmem := t.dmem } = t) ∧
  (∀ (m : List (Nat × Word)) (s : State) (i : Instr), beginStep s = .ok i → beginStep { s with dmem := m } = .ok i)

/-- R42, R46: OUT is only ever appended to, by PRINT, one event of its register. -/
def Obligations.OnlyPrintAppendsToOut : Prop :=
  ∀ (i : Instr) (s t : State), exec i s = .next t → t.out ≠ s.out →
    ∃ rd, i = .print rd ∧ t.out = s.out ++ [(rd, s.reg rd)]

/-- R9: no instruction changes the program image, the parameters or the reset input. -/
def Obligations.InstructionsKeepTheConfiguration : Prop :=
  ∀ (i : Instr) (s t : State), exec i s = .next t → sameConfiguration s t

/-- R137, R269, R270: an instruction either takes one of the six faults, changing nothing else, or changes none of
STATUS and the fault registers. -/
def Obligations.FaultsAreAllOrNothing : Prop :=
  ∀ (i : Instr) (s t : State), exec i s = .next t →
    sameRunRecord s t ∨ ∃ c info w, c ≠ .none ∧ s.wordAtPc = some w ∧ faultTaken c info w s t

/-- R135: after a step whose instruction takes no jump and does not fault the pc has advanced; after a taken jump it
is the label's address; after any fault, a decode fault among them, it stays. -/
def Obligations.PcAdvancesJumpsOrStays : Prop :=
  ∀ s t : State, s.fetching → step s = .next t →
    (t.status = .faulted → t.pc = s.pc) ∧
    (∀ i, beginStep s = .ok i → t.status ≠ .faulted →
      (takenLabel i s.flag = none → t.pc = s.pc + 1) ∧
      (∀ id, takenLabel i s.flag = some id → s.labelTarget id = some t.pc))

/-! ### Decoding -/

/-- R116, R89: every well-formed instruction is decoded from its word, with every operand at every value, on a machine
of any number of registers. -/
def Obligations.DecodeInvertsEncode : Prop :=
  ∀ (n : RegCount) (i : Instr), i.wellFormed n = true → decode n (encode i) = .ok i

/-- R81, R87, R89: a word that decodes is the word of a well-formed instruction; no bit of it is dropped. -/
def Obligations.EncodeInvertsDecode : Prop :=
  ∀ (n : RegCount) (w : InstrWord) (i : Instr), decode n w = .ok i → encode i = w ∧ i.wellFormed n = true

/-- R89, R90: the decoder refuses a word for the first check of R89 that it breaks, and refuses no other word. -/
def Obligations.DecodeFaultIsTheFirstFailedCheck : Prop :=
  ∀ (n : RegCount) (w : InstrWord) (e : DecodeFault), decode n w = .error e ↔ firstDecodeFault n w = some e

/-- R91: exactly the opcodes 0x00 and 0x14 to 0xFF are unknown, whatever the other fields hold. -/
def Obligations.ReservedOpcodesAreUnknown : Prop :=
  ∀ (n : RegCount) (w : InstrWord) (op : BitVec 8), decode n w = .error (.unknownInstruction op) ↔
    op = wordOpcode w ∧ (op.toNat = 0 ∨ 0x14 ≤ op.toNat)

/-- Words the spec writes out in the examples of R150, R151, R173, R200, R204 and R243, and two that 95 refuses. -/
def Obligations.ExampleWordsDecode : Prop :=
  decode 10 0x01300000FFFFFFFF = .ok (.load 3 0xFFFFFFFF) ∧
  decode 10 0x02200000000003E7 = .ok (.store 2 999) ∧
  decode 10 0x0645000000000000 = .ok (.mul 4 5) ∧
  decode 10 0x0901000000000000 = .ok (.cmp 0 1) ∧
  decode 10 0x0B00000000000003 = .ok (.jne 3) ∧
  decode 10 0x1350000000000000 = .ok (.not 5) ∧
  decode 10 0x14A0000100000000 = .error (.unknownInstruction 0x14) ∧
  decode 10 0x04AF000100000001 = .error (.illegalInstruction .rd)

/-! ### The step -/

/-- R130, R133, R134: when the word at the pc decodes to an instruction, the step is that instruction. -/
def Obligations.StepRunsTheDecodedInstruction : Prop :=
  ∀ (s : State) (w : InstrWord) (i : Instr), s.fetching → s.wordAtPc = some w → decode s.params.nreg w = .ok i →
    step s = exec i s

/-- R132: at or past the end of the program the step sets STATUS to HALTED and changes nothing else. -/
def Obligations.StepHaltsAtTheEnd : Prop :=
  ∀ s : State, s.rst = false → s.status = .running → s.imageProblem = none → s.len ≤ s.pc →
    step s = .next { s with status := .halted }

/-- R131, R300: with STATUS not RUNNING, or with `rst` asserted, a step request changes nothing. -/
def Obligations.NoStepOutsideRunning : Prop :=
  ∀ s : State, s.status ≠ .running ∨ s.rst = true → step s = .next s

/-- R89, R261, R262, R270: a word that is no instruction takes UnknownInstruction with its opcode, or
IllegalInstruction with the number of the first bad field. -/
def Obligations.DecodeFaultsAreTaken : Prop :=
  ∀ (s : State) (w : InstrWord), s.fetching → s.wordAtPc = some w →
    (∀ op, firstDecodeFault s.params.nreg w = some (.unknownInstruction op) →
      ∃ t, step s = .next t ∧ faultTaken .unknownInstruction (op.setWidth 32) w s t) ∧
    (∀ field, firstDecodeFault s.params.nreg w = some (.illegalInstruction field) →
      ∃ t, step s = .next t ∧ faultTaken .illegalInstruction field.code w s t)

/-- R137, R138, R281: with an accepted image every step answers a next state: nothing but a bad image stops the
model, and no step answers a model fault. It rests on notes/assumptions/6.md (a request outside RUNNING or under `rst`) and
14.md (the image check). -/
def Obligations.StepAlwaysCompletes : Prop :=
  (∀ s : State, s.imageProblem = none → ∃ t, step s = .next t) ∧
  (∀ (s : State) (r : Refusal), step s = .refused r → s.imageProblem = some r) ∧
  (∀ (s : State) (r : Fault), step s ≠ .fault r)

/-- R37, R38, R302: a RUNNING block with `rst` low is refused its step when the image is not written, when PROG_LEN
is above IMEM_DEPTH, and when a valid label entry points above the end. -/
def Obligations.BadImagesAreRefused : Prop :=
  ∀ s : State, s.rst = false → s.status = .running →
    (s.progLen = none → step s = .refused .imageNotWritten) ∧
    (s.params.imemDepth.val < s.len → step s = .refused .progLenAboveCapacity) ∧
    (∀ k, k < s.len → cellAt k s.imem = none → ∃ r, step s = .refused r) ∧
    (∀ id, id < s.params.labelCap.val → cellAt id s.lt = none → ∃ r, step s = .refused r) ∧
    (∀ id addr, validLabel s id addr → s.len < addr.toNat → ∃ r, step s = .refused r)

/-- R46: a step presents one event exactly when its instruction is a PRINT, and none otherwise. -/
def Obligations.PrintPortPresentsEachPrint : Prop :=
  ∀ (s t : State), step s = .next t →
    (∀ rd, beginStep s = .ok (.print rd) → printEvents s t = [(rd, s.reg rd)]) ∧
    ((∀ rd, beginStep s ≠ .ok (.print rd)) → printEvents s t = [])

/-! ### Invariants -/

/-- R21, R25, R33 to R35, R42, R132, R270, R300: every step keeps the machine's invariant. -/
def Obligations.StepKeepsTheInvariant : Prop :=
  ∀ s t : State, s.Inv → step s = .next t → t.Inv

/-- Every event of the host keeps the machine's invariant too. -/
def Obligations.HostEventsKeepTheInvariant : Prop :=
  ∀ (e : HostEvent) (s t : State), s.Inv → hostEvent e s = .next t → t.Inv

/-- The state after reset meets the invariant, with any parameters and any image in bounds. -/
def Obligations.ResetMeetsTheInvariant : Prop :=
  State.reset.Inv ∧ ∀ s : State, s.imageInBounds → s.assertReset.Inv

/-! ### Reset and the host -/

/-- R301: asserting `rst` gives every piece of state its reset value, whatever the state was, and leaves the image as
it is. -/
def Obligations.ResetValuesAreThoseOfTheTable : Prop :=
  ∀ s : State, ∃ t, hostEvent .assertRst s = .next t ∧ (∀ q, t.reg q = 0) ∧ (∀ a, t.mem a = 0) ∧ t.pc = 0 ∧
    t.flag = s.params.flagReset ∧ t.status = .running ∧ t.cause = .none ∧ t.faultPc = 0 ∧ t.faultWord = 0 ∧
    t.faultInfo = 0 ∧ t.out = [] ∧ t.imem = s.imem ∧ t.progLen = s.progLen ∧ t.lt = s.lt

/-- R300: reset always yields the same state for one image and one set of parameters; while it is asserted no step is
taken; deasserted, the block is RUNNING at pc 0. -/
def Obligations.ResetRestartsTheBlock : Prop :=
  ∀ s r : State, r.imem = s.imem → r.progLen = s.progLen → r.lt = s.lt → r.params = s.params →
    r.assertReset = s.assertReset ∧ step s.assertReset = .next s.assertReset ∧
    ∃ t, hostEvents [.assertRst, .releaseRst] s = .next t ∧ t.rst = false ∧ t.status = .running ∧ t.pc = 0

/-- R304: with `rst` deasserted the block ignores the host's writes of IMEM, LT and PROG_LEN, and no event changes the
image. -/
def Obligations.ImageIsFrozenOutsideReset : Prop :=
  ∀ s : State, s.rst = false →
    (∀ addr data, hostEvent (.writeImem addr data) s = .next s) ∧
    (∀ id data, hostEvent (.writeLabel id data) s = .next s) ∧
    (∀ len, hostEvent (.setProgLen len) s = .next s) ∧
    (∀ e t, hostEvent e s = .next t → t.imem = s.imem ∧ t.progLen = s.progLen ∧ t.lt = s.lt)

/-- R45, R38: with `rst` asserted each write of the host puts its data in its place and changes no other place of that
memory, nothing of the image's two other parts, and nothing outside the image. -/
def Obligations.HostWritesReachTheImage : Prop :=
  ∀ s : State, s.rst = true →
    (∀ (addr : BitVec 10) (data : InstrWord), addr.toNat < s.params.imemDepth.val →
      ∃ t, hostEvent (.writeImem addr data) s = .next t ∧
        (∀ k, cellAt k t.imem = if k = addr.toNat then some data else cellAt k s.imem) ∧
        t.lt = s.lt ∧ t.progLen = s.progLen ∧ sameOutsideImage s t) ∧
    (∀ (id : BitVec 7) (v : BitVec 1) (addr : BitVec 10), id.toNat < s.params.labelCap.val →
      ∃ t, hostEvent (.writeLabel id (v ++ addr)) s = .next t ∧
        (∀ k, cellAt k t.lt = if k = id.toNat then some { v := decide (v = 1), addr := addr } else cellAt k s.lt) ∧
        t.imem = s.imem ∧ t.progLen = s.progLen ∧ sameOutsideImage s t) ∧
    (∀ n : BitVec 10, ∃ t, hostEvent (.setProgLen n) s = .next t ∧ t.len = n.toNat ∧ t.progLen = some n ∧
      t.imem = s.imem ∧ t.lt = s.lt ∧ sameOutsideImage s t)

/-- R48: once the run has ended the debug ports give the registers and the data memory, and 0 at any other address. -/
def Obligations.DebugPortsReadTheEndedState : Prop :=
  ∀ (free : Word) (s : State), s.status ≠ .running →
    (∀ q : Reg, q.val < s.params.nreg.val → s.debugReg free (BitVec.ofNat 4 q.val) = s.reg q) ∧
    (∀ a : BitVec 4, s.params.nreg.val ≤ a.toNat → s.debugReg free a = 0) ∧
    (∀ a : BitVec 10, a.toNat < s.params.dmemDepth → s.debugMem free a = s.mem a.toNat) ∧
    (∀ a : BitVec 10, s.params.dmemDepth ≤ a.toNat → s.debugMem free a = 0)

/-- R28, R32, R260: the codes the host reads on the ports. -/
def Obligations.CodesAreThoseOfTheSpec : Prop :=
  Status.running.code = 0 ∧ Status.halted.code = 1 ∧ Status.faulted.code = 2 ∧
  Flag.equal.code = 0b00 ∧ Flag.less.code = 0b01 ∧ Flag.greater.code = 0b10 ∧
  Cause.none.code = 0 ∧ Cause.unknownInstruction.code = 1 ∧ Cause.illegalInstruction.code = 2 ∧
  Cause.undefinedLabel.code = 3 ∧ Cause.divisionByZero.code = 4 ∧ Cause.memoryOutOfBounds.code = 5 ∧
  Cause.arithmeticOverflow.code = 6 ∧
  BadField.rd.code = 1 ∧ BadField.rs.code = 2 ∧ BadField.z.code = 3 ∧ BadField.imm.code = 4

/-! ### The host's software -/

/-- R262: the assembler never produces a word of a known opcode with a bad field. -/
def Obligations.AssembledWordsAreNeverIllegal : Prop :=
  ∀ (params : Params) (text : List Char) (p : Program), assemble params text = .ok p →
    ∀ w ∈ p.words, w = 0 ∨ ∃ i, decode params.nreg w = .ok i

/-- R105, R115: an assembled program is within the capacities, and each of its labels has an address in [0, len]. -/
def Obligations.AssembledProgramsFit : Prop :=
  ∀ (params : Params) (text : List Char) (p : Program), assemble params text = .ok p →
    p.words.length ≤ params.imemDepth.val ∧ p.labels.length ≤ params.labelCap.val ∧
      ∀ a ∈ p.labels, a ≤ p.words.length

/-- R114, R303: the boot sequence of an assembled program gives a RUNNING block at pc 0 with that program: its words,
its length, its labels and no other label. -/
def Obligations.BootLoadsTheProgram : Prop :=
  ∀ (text : List Char) (p : Program) (s : State), assemble s.params text = .ok p → s.imageInBounds →
    ∃ t, hostEvents (bootEvents s.params p) s = .next t ∧ t.rst = false ∧ t.status = .running ∧ t.pc = 0 ∧
      t.imageProblem = none ∧ t.len = p.words.length ∧
      (∀ k, k < p.words.length → cellAt k t.imem = p.words[k]?) ∧ (∀ id, t.labelTarget id = p.labels[id]?)

/-- R119, R232, R306, R308: a halted block is reported by its PRINT lines and then one dump line per register (ten with
the default NREG), a faulted one by its PRINT lines and one diagnostic line; the lines' texts; the exit codes, 1 for a
program that does not load. -/
def Obligations.HostReportsTheRun : Prop :=
  (∀ d v, printLine (d, v) = "Value in R" ++ toString d.val ++ ": " ++ toString v.toInt) ∧
  ∀ (message : String) (s : State),
    (s.status = .halted →
      (∃ dump, hostOutput s = s.out.map printLine ++ dump ∧ dump.length = s.params.nreg.val ∧
        ∀ i : Reg, i.val < s.params.nreg.val →
          dump[i.val]? = some ("R" ++ toString i.val ++ " = " ++ toString (s.reg i).toInt)) ∧
      hostDiagnostics message s = [] ∧ exitCode s = some 0) ∧
    (s.status = .faulted → hostOutput s = s.out.map printLine ∧
      hostDiagnostics message s = ["Error: " ++ message] ∧ exitCode s = some 1) ∧
    (s.status = .running → exitCode s = none) ∧
    (∀ e : LoadError, jobExitCode (.error e) s = some 1) ∧ (∀ p, jobExitCode (.ok p) s = exitCode s)

/-- R7, R8: the machine of State.reset has the capacities and modes R8 gives as defaults, and neither a step nor any
other event of the host changes a parameter. -/
def Obligations.ParametersAreFixed : Prop :=
  (State.reset.params.nreg.val = 10 ∧ State.reset.params.dmemDepth = 1000 ∧
    State.reset.params.imemDepth.val = 1000 ∧ State.reset.params.labelCap.val = 100 ∧
    State.reset.params.ovfMode = .wrap ∧ State.reset.params.divOvfMode = .fault) ∧
  ∀ (e : HostEvent) (s t : State), hostEvent e s = .next t → t.params = s.params

/-- R85, R89, R262: with any NREG, a register field holding NREG or more, rd or rs, makes the word of a register
instruction illegal, and the step takes the fault with that field's number. -/
def Obligations.RegistersEndAtNreg : Prop :=
  ∀ (s : State) (w : InstrWord), s.fetching → s.wordAtPc = some w →
    0x01 ≤ (wordOpcode w).toNat → (wordOpcode w).toNat ≤ 0x13 →
    ¬ (0x0A ≤ (wordOpcode w).toNat ∧ (wordOpcode w).toNat ≤ 0x0E) →
    (s.params.nreg.val ≤ (wordRd w).toNat →
      ∃ t, step s = .next t ∧ faultTaken .illegalInstruction 1 w s t) ∧
    ((wordRd w).toNat < s.params.nreg.val → s.params.nreg.val ≤ (wordRs w).toNat →
      ∃ t, step s = .next t ∧ faultTaken .illegalInstruction 2 w s t)
end

