-- ==== Sys2Proof/Laws/Decode.lean ====
section
/-! SUPPORT. What the five fields of a packed word are, and how a register field names its register. -/

namespace Sys2Proof

/-- Every bit of a packed word, field by field. -/
theorem getLsbD_packWord (op : BitVec 8) (rd rs : BitVec 4) (imm : BitVec 32) (i : Nat) :
    (packWord op rd rs imm).getLsbD i =
      if i < 32 then imm.getLsbD i
      else if i < 48 then false
      else if i < 52 then rs.getLsbD (i - 48)
      else if i < 56 then rd.getLsbD (i - 52)
      else op.getLsbD (i - 56) := by
  have h : (packWord op rd rs imm).getLsbD i =
      ((((op ++ rd : BitVec (8 + 4)) ++ rs : BitVec (8 + 4 + 4)) ++ (0 : BitVec 16) : BitVec (8 + 4 + 4 + 16))
        ++ imm : BitVec (8 + 4 + 4 + 16 + 32)).getLsbD i := rfl
  rw [h, BitVec.getLsbD_append, BitVec.getLsbD_append, BitVec.getLsbD_append, BitVec.getLsbD_append]
  by_cases h1 : i < 32
  · simp [h1]
  by_cases h2 : i < 48
  · simp [h1, h2, show i - 32 < 16 by omega]
  by_cases h3 : i < 52
  · simp [h1, h2, h3, show ¬ i - 32 < 16 by omega, show i - 32 - 16 = i - 48 by omega, show i - 48 < 4 by omega]
  by_cases h4 : i < 56
  · simp [h1, h2, h3, h4, show ¬ i - 32 < 16 by omega, show i - 32 - 16 = i - 48 by omega,
      show ¬ i - 48 < 4 by omega, show i - 48 - 4 = i - 52 by omega, show i - 52 < 4 by omega]
  · simp [h1, h2, h3, h4, show ¬ i - 32 < 16 by omega, show i - 32 - 16 = i - 48 by omega,
      show ¬ i - 48 < 4 by omega, show i - 48 - 4 = i - 52 by omega, show ¬ i - 52 < 4 by omega,
      show i - 52 - 4 = i - 56 by omega]

theorem wordOpcode_packWord (op : BitVec 8) (rd rs : BitVec 4) (imm : BitVec 32) :
    wordOpcode (packWord op rd rs imm) = op := by
  apply BitVec.eq_of_getLsbD_eq
  intro i hi
  simp [wordOpcode, getLsbD_packWord, hi, show ¬ 56 + i < 32 by omega, show ¬ 56 + i < 48 by omega, show ¬ 56 + i < 52 by omega, show ¬ 56 + i < 56 by omega]

theorem wordRd_packWord (op : BitVec 8) (rd rs : BitVec 4) (imm : BitVec 32) :
    wordRd (packWord op rd rs imm) = rd := by
  apply BitVec.eq_of_getLsbD_eq
  intro i hi
  simp [wordRd, getLsbD_packWord, hi, show ¬ 52 + i < 32 by omega, show ¬ 52 + i < 48 by omega, show ¬ 52 + i < 52 by omega, show 52 + i < 56 by omega]

theorem wordRs_packWord (op : BitVec 8) (rd rs : BitVec 4) (imm : BitVec 32) :
    wordRs (packWord op rd rs imm) = rs := by
  apply BitVec.eq_of_getLsbD_eq
  intro i hi
  simp [wordRs, getLsbD_packWord, hi, show ¬ 48 + i < 32 by omega, show ¬ 48 + i < 48 by omega, show 48 + i < 52 by omega]

theorem wordZ_packWord (op : BitVec 8) (rd rs : BitVec 4) (imm : BitVec 32) :
    wordZ (packWord op rd rs imm) = 0 := by
  apply BitVec.eq_of_getLsbD_eq
  intro i hi
  simp [wordZ, getLsbD_packWord, hi, show ¬ 32 + i < 32 by omega, show 32 + i < 48 by omega]

theorem wordImm_packWord (op : BitVec 8) (rd rs : BitVec 4) (imm : BitVec 32) :
    wordImm (packWord op rd rs imm) = imm := by
  apply BitVec.eq_of_getLsbD_eq
  intro i hi
  simp [wordImm, getLsbD_packWord, hi]

/-- A word with z zero is packed from its own fields: no bit lies outside them (R81). -/
theorem packWord_fields (w : InstrWord) (hz : wordZ w = 0) :
    packWord (wordOpcode w) (wordRd w) (wordRs w) (wordImm w) = w := by
  have hz' : ∀ i, i < 16 → w.getLsbD (32 + i) = false := by
    intro i hi
    have := congrArg (fun v => v.getLsbD i) hz
    simpa [wordZ, hi] using this
  apply BitVec.eq_of_getLsbD_eq
  intro i hi
  rw [getLsbD_packWord]
  simp only [wordOpcode, wordRd, wordRs, wordImm, BitVec.getLsbD_extractLsb']
  by_cases h1 : i < 32
  · simp [h1]
  by_cases h2 : i < 48
  · have := hz' (i - 32) (by omega)
    rw [show 32 + (i - 32) = i by omega] at this
    simp [h1, h2, this]
  by_cases h3 : i < 52
  · simp [h1, h2, h3, show i - 48 < 4 by omega, show 48 + (i - 48) = i by omega]
  by_cases h4 : i < 56
  · simp [h1, h2, h3, h4, show i - 52 < 4 by omega, show 52 + (i - 52) = i by omega]
  · simp [h1, h2, h3, h4, show i - 56 < 8 by omega, show 56 + (i - 56) = i by omega]

theorem toNat_fieldOfReg (r : Reg) : (fieldOfReg r).toNat = r.val := by
  have := r.isLt
  simp [fieldOfReg]
  omega

theorem regOfField_fieldOfReg {n : RegCount} {r : Reg} (hr : registerExists n r = true) :
    regOfField n (fieldOfReg r) = some r := by
  have h := toNat_fieldOfReg r
  simpa [regOfField, registerExists, h] using hr

/-- A field that names a register is that register's, and the register exists. -/
theorem regOfField_eq_some {n : RegCount} {v : BitVec 4} {r : Reg} (h : regOfField n v = some r) :
    fieldOfReg r = v ∧ registerExists n r = true := by
  unfold regOfField at h
  split at h
  · rename_i hv
    cases h
    simp [fieldOfReg, registerExists, hv]
  · cases h

theorem regOfField_eq_none {n : RegCount} {v : BitVec 4} : regOfField n v = none ↔ n.val ≤ v.toNat := by
  unfold regOfField
  split <;> simp <;> omega

/-! ### Everything a format's decoder can accept (R89) -/

theorem decodeRegImm_ok {n : RegCount} {mk : Reg → Word → Instr} {w : InstrWord} {i : Instr}
    (h : decodeRegImm n mk w = .ok i) :
    ∃ rd, registerExists n rd = true ∧ fieldOfReg rd = wordRd w ∧ wordRs w = 0 ∧ wordZ w = 0 ∧
      i = mk rd (wordImm w) := by
  unfold decodeRegImm at h
  split at h
  · cases h
  · rename_i rd hrd
    obtain ⟨hf, hr⟩ := regOfField_eq_some hrd
    split at h
    · cases h
    · split at h
      · cases h
      · rename_i hs hz
        cases h
        exact ⟨rd, hr, hf, by simpa using hs, by simpa using hz, rfl⟩

theorem decodeRegReg_ok {n : RegCount} {mk : Reg → Reg → Instr} {w : InstrWord} {i : Instr}
    (h : decodeRegReg n mk w = .ok i) :
    ∃ rd rs, registerExists n rd = true ∧ fieldOfReg rd = wordRd w ∧ registerExists n rs = true ∧
      fieldOfReg rs = wordRs w ∧ wordZ w = 0 ∧ wordImm w = 0 ∧ i = mk rd rs := by
  unfold decodeRegReg at h
  split at h
  · cases h
  · rename_i rd hrd
    obtain ⟨hfd, hd⟩ := regOfField_eq_some hrd
    split at h
    · cases h
    · rename_i rs hrs
      obtain ⟨hfs, hs⟩ := regOfField_eq_some hrs
      split at h
      · cases h
      · split at h
        · cases h
        · rename_i hz hi
          cases h
          exact ⟨rd, rs, hd, hfd, hs, hfs, by simpa using hz, by simpa using hi, rfl⟩

theorem decodeReg_ok {n : RegCount} {mk : Reg → Instr} {w : InstrWord} {i : Instr}
    (h : decodeReg n mk w = .ok i) :
    ∃ rd, registerExists n rd = true ∧ fieldOfReg rd = wordRd w ∧ wordRs w = 0 ∧ wordZ w = 0 ∧
      wordImm w = 0 ∧ i = mk rd := by
  unfold decodeReg at h
  split at h
  · cases h
  · rename_i rd hrd
    obtain ⟨hf, hr⟩ := regOfField_eq_some hrd
    split at h
    · cases h
    · split at h
      · cases h
      · split at h
        · cases h
        · rename_i hs hz hi
          cases h
          exact ⟨rd, hr, hf, by simpa using hs, by simpa using hz, by simpa using hi, rfl⟩

theorem decodeLabel_ok {mk : Nat → Instr} {w : InstrWord} {i : Instr} (h : decodeLabel mk w = .ok i) :
    wordRd w = 0 ∧ wordRs w = 0 ∧ wordZ w = 0 ∧ i = mk (wordImm w).toNat := by
  unfold decodeLabel at h
  split at h
  · cases h
  · split at h
    · cases h
    · split at h
      · cases h
      · rename_i hd hs hz
        cases h
        exact ⟨by simpa using hd, by simpa using hs, by simpa using hz, rfl⟩

end Sys2Proof
end

