-- ==== Sys2Proof/Laws/Memory.lean ====
section
/-! SUPPORT. The laws of the sparse memories: read after write, the one form kept by every operation, and what a full
listing of the low indices gives. -/

namespace Sys2Proof.Machine

variable {α : Type}

/-! ### Read after write -/

theorem cellAt_cellSet (k q : Nat) (v : α) (cells : List (Nat × α)) :
    cellAt q (cellSet k v cells) = if k = q then some v else cellAt q cells := by
  induction cells with
  | nil => simp [cellSet, cellAt]
  | cons c rest ih =>
    obtain ⟨j, u⟩ := c
    rcases Nat.lt_trichotomy j k with h | h | h
    · by_cases hk : k = q
      · have : j ≠ q := by omega
        simp_all [cellSet, cellAt]
      · simp [cellSet, cellAt, h, ih, hk]
    · subst h
      by_cases hk : j = q <;> simp [cellSet, cellAt, hk]
    · have h1 : ¬ j < k := by omega
      have h2 : j ≠ k := by omega
      simp [cellSet, cellAt, h1, h2]

theorem cellAt_cellErase (k q : Nat) (cells : List (Nat × α)) :
    cellAt q (cellErase k cells) = if k = q then none else cellAt q cells := by
  induction cells with
  | nil => simp [cellErase, cellAt]
  | cons c rest ih =>
    obtain ⟨j, u⟩ := c
    by_cases hj : j = k <;> by_cases hk : k = q <;> simp_all [cellErase, cellAt]

/-- Data memory read after a write (R71): the written word at its address, every other word as before. -/
theorem dmemRead_dmemWrite (k q : Nat) (v : Word) (mem : List (Nat × Word)) :
    dmemRead q (dmemWrite k v mem) = if q = k then v else dmemRead q mem := by
  unfold dmemWrite dmemRead
  split
  · rename_i hv
    by_cases hk : q = k
    · simp [cellAt_cellErase, hk, hv]
    · simp [cellAt_cellErase, hk, Ne.symm hk]
  · by_cases hk : q = k
    · simp [cellAt_cellSet, hk]
    · simp [cellAt_cellSet, hk, Ne.symm hk]

theorem State.mem_setMem (s : State) (k q : Nat) (v : Word) :
    (s.setMem k v).mem q = if q = k then v else s.mem q :=
  dmemRead_dmemWrite k q v s.dmem

/-! ### The one form is kept -/

theorem risingFrom_mono {low high : Nat} (h : low ≤ high) {cells : List (Nat × α)}
    (hr : risingFrom high cells = true) : risingFrom low cells = true := by
  cases cells with
  | nil => rfl
  | cons c rest =>
    obtain ⟨j, u⟩ := c
    simp [risingFrom] at hr ⊢
    exact ⟨by omega, hr.2⟩

theorem risingFrom_cellSet {low k : Nat} (hk : low ≤ k) (v : α) {cells : List (Nat × α)}
    (hr : risingFrom low cells = true) : risingFrom low (cellSet k v cells) = true := by
  induction cells generalizing low with
  | nil => simp [cellSet, risingFrom, hk]
  | cons c rest ih =>
    obtain ⟨j, u⟩ := c
    simp [risingFrom] at hr
    rcases Nat.lt_trichotomy j k with h | h | h
    · simp [cellSet, risingFrom, h, hr.1, ih (by omega : j + 1 ≤ k) hr.2]
    · subst h
      simp [cellSet, risingFrom, hr.1, hr.2]
    · have h1 : ¬ j < k := by omega
      have h2 : j ≠ k := by omega
      simp [cellSet, risingFrom, h1, h2, hk, hr.2]
      omega

theorem risingFrom_cellErase (k : Nat) {low : Nat} {cells : List (Nat × α)}
    (hr : risingFrom low cells = true) : risingFrom low (cellErase k cells) = true := by
  induction cells generalizing low with
  | nil => rfl
  | cons c rest ih =>
    obtain ⟨j, u⟩ := c
    simp [risingFrom] at hr
    by_cases h : j = k
    · simp [cellErase, h]
      exact risingFrom_mono (by omega) (ih hr.2)
    · simp [cellErase, risingFrom, h, hr.1, ih hr.2]

theorem mem_cellSet {k : Nat} {v : α} {c : Nat × α} {cells : List (Nat × α)}
    (h : c ∈ cellSet k v cells) : c = (k, v) ∨ c ∈ cells := by
  induction cells with
  | nil => simpa [cellSet] using h
  | cons d rest ih =>
    obtain ⟨j, u⟩ := d
    unfold cellSet at h
    split at h
    · rcases List.mem_cons.1 h with h | h
      · simp [h]
      · rcases ih h with h | h <;> simp [h]
    · split at h
      · rcases List.mem_cons.1 h with h | h <;> simp [h]
      · rcases List.mem_cons.1 h with h | h
        · simp [h]
        · exact Or.inr h

theorem mem_cellErase {k : Nat} {c : Nat × α} {cells : List (Nat × α)}
    (h : c ∈ cellErase k cells) : c ∈ cells := by
  induction cells with
  | nil => simp [cellErase] at h
  | cons d rest ih =>
    obtain ⟨j, u⟩ := d
    unfold cellErase at h
    split at h
    · exact List.mem_cons_of_mem _ (ih h)
    · rcases List.mem_cons.1 h with h | h
      · simp [h]
      · exact List.mem_cons_of_mem _ (ih h)

theorem Memory.wf_iff (depth : Nat) (mem : List (Nat × Word)) :
    Memory.wf depth mem = true ↔
      risingFrom 0 mem = true ∧ ∀ c ∈ mem, c.1 < depth ∧ c.2 ≠ 0 := by
  simp [Memory.wf]

/-- A write at a valid index keeps the memory's one form. -/
theorem Memory.wf_dmemWrite {depth k : Nat} (hk : k < depth) (v : Word) {mem : List (Nat × Word)}
    (h : Memory.wf depth mem = true) : Memory.wf depth (dmemWrite k v mem) = true := by
  obtain ⟨hr, hc⟩ := (Memory.wf_iff depth mem).1 h
  unfold dmemWrite
  split
  · exact (Memory.wf_iff _ _).2 ⟨risingFrom_cellErase k hr, fun c m => hc c (mem_cellErase m)⟩
  · rename_i hv
    refine (Memory.wf_iff _ _).2 ⟨risingFrom_cellSet (Nat.zero_le k) v hr, fun c m => ?_⟩
    rcases mem_cellSet m with rfl | m
    · exact ⟨hk, hv⟩
    · exact hc c m

theorem Memory.wf_empty (depth : Nat) : Memory.wf depth [] = true := rfl

/-- The memory right after reset has the one form. -/
theorem State.reset_memory_wf : Memory.wf State.reset.params.dmemDepth State.reset.dmem = true := rfl

/-! ### Equal reads, equal memories -/

theorem cellAt_none_of_risingFrom {low k : Nat} (hk : k < low) {cells : List (Nat × α)}
    (hr : risingFrom low cells = true) : cellAt k cells = none := by
  induction cells generalizing low with
  | nil => rfl
  | cons c rest ih =>
    obtain ⟨j, u⟩ := c
    simp [risingFrom] at hr
    have : j ≠ k := by omega
    simp [cellAt, this, ih (by omega : k < j + 1) hr.2]

/-! ### Full listings -/

theorem cellAt_isSome_of_mem {k : Nat} {cells : List (Nat × α)} (h : k ∈ cells.map Prod.fst) :
    (cellAt k cells).isSome = true := by
  induction cells with
  | nil => simp at h
  | cons c rest ih =>
    obtain ⟨j, u⟩ := c
    by_cases hj : j = k
    · simp [cellAt, hj]
    · rcases List.mem_cons.1 h with h | h
      · exact absurd h.symm hj
      · simp [cellAt, hj, ih h]

/-- Where every index below `n` is listed, each of them holds something. -/
theorem cellAt_isSome_of_listsAllBelow {n k : Nat} (hk : k < n) {cells : List (Nat × α)}
    (h : listsAllBelow n cells = true) : (cellAt k cells).isSome = true := by
  have he : (cells.take n).map Prod.fst = List.range n := by simpa [listsAllBelow] using h
  have hm : k ∈ (cells.take n).map Prod.fst := by simpa [he] using hk
  obtain ⟨c, hc, rfl⟩ := List.mem_map.1 hm
  exact cellAt_isSome_of_mem (List.mem_map.2 ⟨c, List.mem_of_mem_take hc, rfl⟩)

theorem take_keys_eq_range' {low n : Nat} {cells : List (Nat × α)} (hr : risingFrom low cells = true)
    (h : ∀ k, low ≤ k → k < low + n → (cellAt k cells).isSome = true) :
    (cells.take n).map Prod.fst = List.range' low n := by
  induction n generalizing low cells with
  | zero => simp
  | succ n ih =>
    cases cells with
    | nil => simpa [cellAt] using h low (Nat.le_refl _) (by omega)
    | cons c rest =>
      obtain ⟨j, u⟩ := c
      simp [risingFrom] at hr
      have hj : j = low := by
        by_contra hne
        have h0 := h low (Nat.le_refl _) (by omega)
        rw [cellAt, if_neg hne, cellAt_none_of_risingFrom (by omega : low < j + 1) hr.2] at h0
        cases h0
      subst hj
      have hrest := ih hr.2 (fun k hk1 hk2 => by
        have hk := h k (by omega) (by omega)
        rwa [cellAt, if_neg (by omega)] at hk)
      simp [List.range'_succ, hrest]

/-- In a rising list, indices below `n` that all hold something are a full listing. -/
theorem listsAllBelow_of_rising {n : Nat} {cells : List (Nat × α)} (hr : risingFrom 0 cells = true)
    (h : ∀ k, k < n → (cellAt k cells).isSome = true) : listsAllBelow n cells = true := by
  have := take_keys_eq_range' hr (n := n) (fun k _ hk => h k (by omega))
  simpa [listsAllBelow, List.range_eq_range'] using this

/-- An entry that is read is listed. -/
theorem mem_of_cellAt {k : Nat} {v : α} {cells : List (Nat × α)} (h : cellAt k cells = some v) :
    (k, v) ∈ cells := by
  induction cells with
  | nil => simp [cellAt] at h
  | cons c rest ih =>
    obtain ⟨j, u⟩ := c
    by_cases hj : j = k
    · simp [cellAt, hj] at h
      simp [hj, h]
    · exact List.mem_cons_of_mem _ (ih (by simpa [cellAt, hj] using h))

end Sys2Proof.Machine
end

