-- ==== Sys2Proof/Laws/State.lean ====
section
/-! SUPPORT. One lemma per field per state update, true by unfolding, so that no later proof unfolds a record update;
and what reading a register, a memory word, the length or a label gives after one. -/

namespace Sys2Proof.Machine

variable (s : State)

/-! ### setReg -/

@[simp] theorem State.setReg_x (r : Reg) (v : Word) : (s.setReg r v).x = s.x.set r v := rfl
@[simp] theorem State.setReg_flag (r : Reg) (v : Word) : (s.setReg r v).flag = s.flag := rfl
@[simp] theorem State.setReg_pc (r : Reg) (v : Word) : (s.setReg r v).pc = s.pc := rfl
@[simp] theorem State.setReg_dmem (r : Reg) (v : Word) : (s.setReg r v).dmem = s.dmem := rfl
@[simp] theorem State.setReg_status (r : Reg) (v : Word) : (s.setReg r v).status = s.status := rfl
@[simp] theorem State.setReg_cause (r : Reg) (v : Word) : (s.setReg r v).cause = s.cause := rfl
@[simp] theorem State.setReg_faultPc (r : Reg) (v : Word) : (s.setReg r v).faultPc = s.faultPc := rfl
@[simp] theorem State.setReg_faultWord (r : Reg) (v : Word) : (s.setReg r v).faultWord = s.faultWord := rfl
@[simp] theorem State.setReg_faultInfo (r : Reg) (v : Word) : (s.setReg r v).faultInfo = s.faultInfo := rfl
@[simp] theorem State.setReg_out (r : Reg) (v : Word) : (s.setReg r v).out = s.out := rfl
@[simp] theorem State.setReg_imem (r : Reg) (v : Word) : (s.setReg r v).imem = s.imem := rfl
@[simp] theorem State.setReg_progLen (r : Reg) (v : Word) : (s.setReg r v).progLen = s.progLen := rfl
@[simp] theorem State.setReg_lt (r : Reg) (v : Word) : (s.setReg r v).lt = s.lt := rfl
@[simp] theorem State.setReg_params (r : Reg) (v : Word) : (s.setReg r v).params = s.params := rfl
@[simp] theorem State.setReg_rst (r : Reg) (v : Word) : (s.setReg r v).rst = s.rst := rfl

/-! ### setMem -/

@[simp] theorem State.setMem_x (k : Nat) (v : Word) : (s.setMem k v).x = s.x := rfl
@[simp] theorem State.setMem_flag (k : Nat) (v : Word) : (s.setMem k v).flag = s.flag := rfl
@[simp] theorem State.setMem_pc (k : Nat) (v : Word) : (s.setMem k v).pc = s.pc := rfl
@[simp] theorem State.setMem_dmem (k : Nat) (v : Word) : (s.setMem k v).dmem = dmemWrite k v s.dmem := rfl
@[simp] theorem State.setMem_status (k : Nat) (v : Word) : (s.setMem k v).status = s.status := rfl
@[simp] theorem State.setMem_cause (k : Nat) (v : Word) : (s.setMem k v).cause = s.cause := rfl
@[simp] theorem State.setMem_faultPc (k : Nat) (v : Word) : (s.setMem k v).faultPc = s.faultPc := rfl
@[simp] theorem State.setMem_faultWord (k : Nat) (v : Word) : (s.setMem k v).faultWord = s.faultWord := rfl
@[simp] theorem State.setMem_faultInfo (k : Nat) (v : Word) : (s.setMem k v).faultInfo = s.faultInfo := rfl
@[simp] theorem State.setMem_out (k : Nat) (v : Word) : (s.setMem k v).out = s.out := rfl
@[simp] theorem State.setMem_imem (k : Nat) (v : Word) : (s.setMem k v).imem = s.imem := rfl
@[simp] theorem State.setMem_progLen (k : Nat) (v : Word) : (s.setMem k v).progLen = s.progLen := rfl
@[simp] theorem State.setMem_lt (k : Nat) (v : Word) : (s.setMem k v).lt = s.lt := rfl
@[simp] theorem State.setMem_params (k : Nat) (v : Word) : (s.setMem k v).params = s.params := rfl
@[simp] theorem State.setMem_rst (k : Nat) (v : Word) : (s.setMem k v).rst = s.rst := rfl

/-! ### setFlag -/

@[simp] theorem State.setFlag_x (f : Flag) : (s.setFlag f).x = s.x := rfl
@[simp] theorem State.setFlag_flag (f : Flag) : (s.setFlag f).flag = f := rfl
@[simp] theorem State.setFlag_pc (f : Flag) : (s.setFlag f).pc = s.pc := rfl
@[simp] theorem State.setFlag_dmem (f : Flag) : (s.setFlag f).dmem = s.dmem := rfl
@[simp] theorem State.setFlag_status (f : Flag) : (s.setFlag f).status = s.status := rfl
@[simp] theorem State.setFlag_cause (f : Flag) : (s.setFlag f).cause = s.cause := rfl
@[simp] theorem State.setFlag_faultPc (f : Flag) : (s.setFlag f).faultPc = s.faultPc := rfl
@[simp] theorem State.setFlag_faultWord (f : Flag) : (s.setFlag f).faultWord = s.faultWord := rfl
@[simp] theorem State.setFlag_faultInfo (f : Flag) : (s.setFlag f).faultInfo = s.faultInfo := rfl
@[simp] theorem State.setFlag_out (f : Flag) : (s.setFlag f).out = s.out := rfl
@[simp] theorem State.setFlag_imem (f : Flag) : (s.setFlag f).imem = s.imem := rfl
@[simp] theorem State.setFlag_progLen (f : Flag) : (s.setFlag f).progLen = s.progLen := rfl
@[simp] theorem State.setFlag_lt (f : Flag) : (s.setFlag f).lt = s.lt := rfl
@[simp] theorem State.setFlag_params (f : Flag) : (s.setFlag f).params = s.params := rfl
@[simp] theorem State.setFlag_rst (f : Flag) : (s.setFlag f).rst = s.rst := rfl

/-! ### emit -/

@[simp] theorem State.emit_x (d : Reg) (v : Word) : (s.emit d v).x = s.x := rfl
@[simp] theorem State.emit_flag (d : Reg) (v : Word) : (s.emit d v).flag = s.flag := rfl
@[simp] theorem State.emit_pc (d : Reg) (v : Word) : (s.emit d v).pc = s.pc := rfl
@[simp] theorem State.emit_dmem (d : Reg) (v : Word) : (s.emit d v).dmem = s.dmem := rfl
@[simp] theorem State.emit_status (d : Reg) (v : Word) : (s.emit d v).status = s.status := rfl
@[simp] theorem State.emit_cause (d : Reg) (v : Word) : (s.emit d v).cause = s.cause := rfl
@[simp] theorem State.emit_faultPc (d : Reg) (v : Word) : (s.emit d v).faultPc = s.faultPc := rfl
@[simp] theorem State.emit_faultWord (d : Reg) (v : Word) : (s.emit d v).faultWord = s.faultWord := rfl
@[simp] theorem State.emit_faultInfo (d : Reg) (v : Word) : (s.emit d v).faultInfo = s.faultInfo := rfl
@[simp] theorem State.emit_out (d : Reg) (v : Word) : (s.emit d v).out = s.out ++ [(d, v)] := rfl
@[simp] theorem State.emit_imem (d : Reg) (v : Word) : (s.emit d v).imem = s.imem := rfl
@[simp] theorem State.emit_progLen (d : Reg) (v : Word) : (s.emit d v).progLen = s.progLen := rfl
@[simp] theorem State.emit_lt (d : Reg) (v : Word) : (s.emit d v).lt = s.lt := rfl
@[simp] theorem State.emit_params (d : Reg) (v : Word) : (s.emit d v).params = s.params := rfl
@[simp] theorem State.emit_rst (d : Reg) (v : Word) : (s.emit d v).rst = s.rst := rfl

/-! ### setPc -/

@[simp] theorem State.setPc_x (target : Nat) : (s.setPc target).x = s.x := rfl
@[simp] theorem State.setPc_flag (target : Nat) : (s.setPc target).flag = s.flag := rfl
@[simp] theorem State.setPc_pc (target : Nat) : (s.setPc target).pc = target := rfl
@[simp] theorem State.setPc_dmem (target : Nat) : (s.setPc target).dmem = s.dmem := rfl
@[simp] theorem State.setPc_status (target : Nat) : (s.setPc target).status = s.status := rfl
@[simp] theorem State.setPc_cause (target : Nat) : (s.setPc target).cause = s.cause := rfl
@[simp] theorem State.setPc_faultPc (target : Nat) : (s.setPc target).faultPc = s.faultPc := rfl
@[simp] theorem State.setPc_faultWord (target : Nat) : (s.setPc target).faultWord = s.faultWord := rfl
@[simp] theorem State.setPc_faultInfo (target : Nat) : (s.setPc target).faultInfo = s.faultInfo := rfl
@[simp] theorem State.setPc_out (target : Nat) : (s.setPc target).out = s.out := rfl
@[simp] theorem State.setPc_imem (target : Nat) : (s.setPc target).imem = s.imem := rfl
@[simp] theorem State.setPc_progLen (target : Nat) : (s.setPc target).progLen = s.progLen := rfl
@[simp] theorem State.setPc_lt (target : Nat) : (s.setPc target).lt = s.lt := rfl
@[simp] theorem State.setPc_params (target : Nat) : (s.setPc target).params = s.params := rfl
@[simp] theorem State.setPc_rst (target : Nat) : (s.setPc target).rst = s.rst := rfl

/-! ### advance -/

@[simp] theorem State.advance_x : (s.advance).x = s.x := rfl
@[simp] theorem State.advance_flag : (s.advance).flag = s.flag := rfl
@[simp] theorem State.advance_pc : (s.advance).pc = s.pc + 1 := rfl
@[simp] theorem State.advance_dmem : (s.advance).dmem = s.dmem := rfl
@[simp] theorem State.advance_status : (s.advance).status = s.status := rfl
@[simp] theorem State.advance_cause : (s.advance).cause = s.cause := rfl
@[simp] theorem State.advance_faultPc : (s.advance).faultPc = s.faultPc := rfl
@[simp] theorem State.advance_faultWord : (s.advance).faultWord = s.faultWord := rfl
@[simp] theorem State.advance_faultInfo : (s.advance).faultInfo = s.faultInfo := rfl
@[simp] theorem State.advance_out : (s.advance).out = s.out := rfl
@[simp] theorem State.advance_imem : (s.advance).imem = s.imem := rfl
@[simp] theorem State.advance_progLen : (s.advance).progLen = s.progLen := rfl
@[simp] theorem State.advance_lt : (s.advance).lt = s.lt := rfl
@[simp] theorem State.advance_params : (s.advance).params = s.params := rfl
@[simp] theorem State.advance_rst : (s.advance).rst = s.rst := rfl

/-! ### halt -/

@[simp] theorem State.halt_x : (s.halt).x = s.x := rfl
@[simp] theorem State.halt_flag : (s.halt).flag = s.flag := rfl
@[simp] theorem State.halt_pc : (s.halt).pc = s.pc := rfl
@[simp] theorem State.halt_dmem : (s.halt).dmem = s.dmem := rfl
@[simp] theorem State.halt_status : (s.halt).status = .halted := rfl
@[simp] theorem State.halt_cause : (s.halt).cause = s.cause := rfl
@[simp] theorem State.halt_faultPc : (s.halt).faultPc = s.faultPc := rfl
@[simp] theorem State.halt_faultWord : (s.halt).faultWord = s.faultWord := rfl
@[simp] theorem State.halt_faultInfo : (s.halt).faultInfo = s.faultInfo := rfl
@[simp] theorem State.halt_out : (s.halt).out = s.out := rfl
@[simp] theorem State.halt_imem : (s.halt).imem = s.imem := rfl
@[simp] theorem State.halt_progLen : (s.halt).progLen = s.progLen := rfl
@[simp] theorem State.halt_lt : (s.halt).lt = s.lt := rfl
@[simp] theorem State.halt_params : (s.halt).params = s.params := rfl
@[simp] theorem State.halt_rst : (s.halt).rst = s.rst := rfl

/-! ### enterFault -/

@[simp] theorem State.enterFault_x (c : Cause) (info : Word) (w : InstrWord) : (s.enterFault c info w).x = s.x := rfl
@[simp] theorem State.enterFault_flag (c : Cause) (info : Word) (w : InstrWord) : (s.enterFault c info w).flag = s.flag := rfl
@[simp] theorem State.enterFault_pc (c : Cause) (info : Word) (w : InstrWord) : (s.enterFault c info w).pc = s.pc := rfl
@[simp] theorem State.enterFault_dmem (c : Cause) (info : Word) (w : InstrWord) : (s.enterFault c info w).dmem = s.dmem := rfl
@[simp] theorem State.enterFault_status (c : Cause) (info : Word) (w : InstrWord) : (s.enterFault c info w).status = .faulted := rfl
@[simp] theorem State.enterFault_cause (c : Cause) (info : Word) (w : InstrWord) : (s.enterFault c info w).cause = c := rfl
@[simp] theorem State.enterFault_faultPc (c : Cause) (info : Word) (w : InstrWord) : (s.enterFault c info w).faultPc = s.pc := rfl
@[simp] theorem State.enterFault_faultWord (c : Cause) (info : Word) (w : InstrWord) : (s.enterFault c info w).faultWord = w := rfl
@[simp] theorem State.enterFault_faultInfo (c : Cause) (info : Word) (w : InstrWord) : (s.enterFault c info w).faultInfo = info := rfl
@[simp] theorem State.enterFault_out (c : Cause) (info : Word) (w : InstrWord) : (s.enterFault c info w).out = s.out := rfl
@[simp] theorem State.enterFault_imem (c : Cause) (info : Word) (w : InstrWord) : (s.enterFault c info w).imem = s.imem := rfl
@[simp] theorem State.enterFault_progLen (c : Cause) (info : Word) (w : InstrWord) : (s.enterFault c info w).progLen = s.progLen := rfl
@[simp] theorem State.enterFault_lt (c : Cause) (info : Word) (w : InstrWord) : (s.enterFault c info w).lt = s.lt := rfl
@[simp] theorem State.enterFault_params (c : Cause) (info : Word) (w : InstrWord) : (s.enterFault c info w).params = s.params := rfl
@[simp] theorem State.enterFault_rst (c : Cause) (info : Word) (w : InstrWord) : (s.enterFault c info w).rst = s.rst := rfl

/-! ### releaseReset -/

@[simp] theorem State.releaseReset_x : (s.releaseReset).x = s.x := rfl
@[simp] theorem State.releaseReset_flag : (s.releaseReset).flag = s.flag := rfl
@[simp] theorem State.releaseReset_pc : (s.releaseReset).pc = s.pc := rfl
@[simp] theorem State.releaseReset_dmem : (s.releaseReset).dmem = s.dmem := rfl
@[simp] theorem State.releaseReset_status : (s.releaseReset).status = s.status := rfl
@[simp] theorem State.releaseReset_cause : (s.releaseReset).cause = s.cause := rfl
@[simp] theorem State.releaseReset_faultPc : (s.releaseReset).faultPc = s.faultPc := rfl
@[simp] theorem State.releaseReset_faultWord : (s.releaseReset).faultWord = s.faultWord := rfl
@[simp] theorem State.releaseReset_faultInfo : (s.releaseReset).faultInfo = s.faultInfo := rfl
@[simp] theorem State.releaseReset_out : (s.releaseReset).out = s.out := rfl
@[simp] theorem State.releaseReset_imem : (s.releaseReset).imem = s.imem := rfl
@[simp] theorem State.releaseReset_progLen : (s.releaseReset).progLen = s.progLen := rfl
@[simp] theorem State.releaseReset_lt : (s.releaseReset).lt = s.lt := rfl
@[simp] theorem State.releaseReset_params : (s.releaseReset).params = s.params := rfl
@[simp] theorem State.releaseReset_rst : (s.releaseReset).rst = false := rfl

/-! ### assertReset -/

@[simp] theorem State.assertReset_x : (s.assertReset).x = Vector.replicate 10 0 := rfl
@[simp] theorem State.assertReset_flag : (s.assertReset).flag = s.params.flagReset := rfl
@[simp] theorem State.assertReset_pc : (s.assertReset).pc = 0 := rfl
@[simp] theorem State.assertReset_dmem : (s.assertReset).dmem = [] := rfl
@[simp] theorem State.assertReset_status : (s.assertReset).status = .running := rfl
@[simp] theorem State.assertReset_cause : (s.assertReset).cause = .none := rfl
@[simp] theorem State.assertReset_faultPc : (s.assertReset).faultPc = 0 := rfl
@[simp] theorem State.assertReset_faultWord : (s.assertReset).faultWord = 0 := rfl
@[simp] theorem State.assertReset_faultInfo : (s.assertReset).faultInfo = 0 := rfl
@[simp] theorem State.assertReset_out : (s.assertReset).out = [] := rfl
@[simp] theorem State.assertReset_imem : (s.assertReset).imem = s.imem := rfl
@[simp] theorem State.assertReset_progLen : (s.assertReset).progLen = s.progLen := rfl
@[simp] theorem State.assertReset_lt : (s.assertReset).lt = s.lt := rfl
@[simp] theorem State.assertReset_params : (s.assertReset).params = s.params := rfl
@[simp] theorem State.assertReset_rst : (s.assertReset).rst = true := rfl

/-! ### Registers and memory words after an update -/

theorem State.reg_setReg (r q : Reg) (v : Word) :
    (s.setReg r v).reg q = if q = r then v else s.reg q := by
  by_cases h : q = r
  · subst h
    simp [State.reg]
  · have hne : r.val ≠ q.val := fun hv => h (Fin.ext hv.symm)
    simp [State.reg, h, hne]

@[simp] theorem State.reg_setMem (k : Nat) (v : Word) (q : Reg) : (s.setMem k v).reg q = s.reg q := rfl
@[simp] theorem State.reg_setFlag (f : Flag) (q : Reg) : (s.setFlag f).reg q = s.reg q := rfl
@[simp] theorem State.reg_emit (d : Reg) (v : Word) (q : Reg) : (s.emit d v).reg q = s.reg q := rfl
@[simp] theorem State.reg_setPc (target : Nat) (q : Reg) : (s.setPc target).reg q = s.reg q := rfl
@[simp] theorem State.reg_advance (q : Reg) : (s.advance).reg q = s.reg q := rfl
@[simp] theorem State.reg_halt (q : Reg) : (s.halt).reg q = s.reg q := rfl
@[simp] theorem State.reg_enterFault (c : Cause) (info : Word) (w : InstrWord) (q : Reg) : (s.enterFault c info w).reg q = s.reg q := rfl
@[simp] theorem State.reg_releaseReset (q : Reg) : (s.releaseReset).reg q = s.reg q := rfl

@[simp] theorem State.mem_setReg (r : Reg) (v : Word) (a : Nat) : (s.setReg r v).mem a = s.mem a := rfl
@[simp] theorem State.mem_setFlag (f : Flag) (a : Nat) : (s.setFlag f).mem a = s.mem a := rfl
@[simp] theorem State.mem_emit (d : Reg) (v : Word) (a : Nat) : (s.emit d v).mem a = s.mem a := rfl
@[simp] theorem State.mem_setPc (target : Nat) (a : Nat) : (s.setPc target).mem a = s.mem a := rfl
@[simp] theorem State.mem_advance (a : Nat) : (s.advance).mem a = s.mem a := rfl
@[simp] theorem State.mem_halt (a : Nat) : (s.halt).mem a = s.mem a := rfl
@[simp] theorem State.mem_enterFault (c : Cause) (info : Word) (w : InstrWord) (a : Nat) : (s.enterFault c info w).mem a = s.mem a := rfl
@[simp] theorem State.mem_releaseReset (a : Nat) : (s.releaseReset).mem a = s.mem a := rfl

@[simp] theorem State.len_setReg (r : Reg) (v : Word) : (s.setReg r v).len = s.len := rfl
@[simp] theorem State.len_setMem (k : Nat) (v : Word) : (s.setMem k v).len = s.len := rfl
@[simp] theorem State.len_setFlag (f : Flag) : (s.setFlag f).len = s.len := rfl
@[simp] theorem State.len_emit (d : Reg) (v : Word) : (s.emit d v).len = s.len := rfl
@[simp] theorem State.len_setPc (target : Nat) : (s.setPc target).len = s.len := rfl
@[simp] theorem State.len_advance : (s.advance).len = s.len := rfl
@[simp] theorem State.len_halt : (s.halt).len = s.len := rfl
@[simp] theorem State.len_enterFault (c : Cause) (info : Word) (w : InstrWord) : (s.enterFault c info w).len = s.len := rfl
@[simp] theorem State.len_releaseReset : (s.releaseReset).len = s.len := rfl
@[simp] theorem State.len_assertReset : (s.assertReset).len = s.len := rfl

@[simp] theorem State.labelTarget_setReg (r : Reg) (v : Word) (id : Nat) : (s.setReg r v).labelTarget id = s.labelTarget id := rfl
@[simp] theorem State.labelTarget_setMem (k : Nat) (v : Word) (id : Nat) : (s.setMem k v).labelTarget id = s.labelTarget id := rfl
@[simp] theorem State.labelTarget_setFlag (f : Flag) (id : Nat) : (s.setFlag f).labelTarget id = s.labelTarget id := rfl
@[simp] theorem State.labelTarget_emit (d : Reg) (v : Word) (id : Nat) : (s.emit d v).labelTarget id = s.labelTarget id := rfl
@[simp] theorem State.labelTarget_setPc (target : Nat) (id : Nat) : (s.setPc target).labelTarget id = s.labelTarget id := rfl
@[simp] theorem State.labelTarget_advance (id : Nat) : (s.advance).labelTarget id = s.labelTarget id := rfl
@[simp] theorem State.labelTarget_halt (id : Nat) : (s.halt).labelTarget id = s.labelTarget id := rfl
@[simp] theorem State.labelTarget_enterFault (c : Cause) (info : Word) (w : InstrWord) (id : Nat) : (s.enterFault c info w).labelTarget id = s.labelTarget id := rfl
@[simp] theorem State.labelTarget_releaseReset (id : Nat) : (s.releaseReset).labelTarget id = s.labelTarget id := rfl
@[simp] theorem State.labelTarget_assertReset (id : Nat) : (s.assertReset).labelTarget id = s.labelTarget id := rfl

@[simp] theorem State.wordAtPc_setReg (r : Reg) (v : Word) : (s.setReg r v).wordAtPc = s.wordAtPc := rfl
@[simp] theorem State.wordAtPc_setMem (k : Nat) (v : Word) : (s.setMem k v).wordAtPc = s.wordAtPc := rfl
@[simp] theorem State.wordAtPc_setFlag (f : Flag) : (s.setFlag f).wordAtPc = s.wordAtPc := rfl
@[simp] theorem State.wordAtPc_emit (d : Reg) (v : Word) : (s.emit d v).wordAtPc = s.wordAtPc := rfl
@[simp] theorem State.wordAtPc_halt : (s.halt).wordAtPc = s.wordAtPc := rfl
@[simp] theorem State.wordAtPc_enterFault (c : Cause) (info : Word) (w : InstrWord) : (s.enterFault c info w).wordAtPc = s.wordAtPc := rfl
@[simp] theorem State.wordAtPc_releaseReset : (s.releaseReset).wordAtPc = s.wordAtPc := rfl

@[simp] theorem State.imageProblem_setReg (r : Reg) (v : Word) : (s.setReg r v).imageProblem = s.imageProblem := rfl
@[simp] theorem State.imageProblem_setMem (k : Nat) (v : Word) : (s.setMem k v).imageProblem = s.imageProblem := rfl
@[simp] theorem State.imageProblem_setFlag (f : Flag) : (s.setFlag f).imageProblem = s.imageProblem := rfl
@[simp] theorem State.imageProblem_emit (d : Reg) (v : Word) : (s.emit d v).imageProblem = s.imageProblem := rfl
@[simp] theorem State.imageProblem_setPc (target : Nat) : (s.setPc target).imageProblem = s.imageProblem := rfl
@[simp] theorem State.imageProblem_advance : (s.advance).imageProblem = s.imageProblem := rfl
@[simp] theorem State.imageProblem_halt : (s.halt).imageProblem = s.imageProblem := rfl
@[simp] theorem State.imageProblem_enterFault (c : Cause) (info : Word) (w : InstrWord) : (s.enterFault c info w).imageProblem = s.imageProblem := rfl
@[simp] theorem State.imageProblem_releaseReset : (s.releaseReset).imageProblem = s.imageProblem := rfl
@[simp] theorem State.imageProblem_assertReset : (s.assertReset).imageProblem = s.imageProblem := rfl

end Sys2Proof.Machine
end

