-- ==== Sys2Proof/Laws/Ops.lean ====
section
/-! SUPPORT. For each shared operation, once, everything it can do. -/

namespace Sys2Proof.Machine

/-- Taking a fault where the fetched word is there. -/
theorem takeFault_eq {s : State} {w : InstrWord} (h : s.wordAtPc = some w) (c : Cause) (info : Word) :
    takeFault c info s = .next (s.enterFault c info w) := by
  simp [takeFault, h]

/-- If taking a fault answers a next state, that state is the fault entry of R270. -/
theorem takeFault_next {c : Cause} {info : Word} {s t : State} (h : takeFault c info s = .next t) :
    ∃ w, s.wordAtPc = some w ∧ t = s.enterFault c info w := by
  unfold takeFault at h
  split at h
  · exact ⟨_, ‹_›, (Host.Outcome.next.inj h).symm⟩
  · cases h

theorem labelTarget_eq_some {s : State} {id target : Nat} (h : s.labelTarget id = some target) :
    id < s.params.labelCap.val ∧ ∃ e, cellAt id s.lt = some e ∧ e.v = true ∧ e.addr.toNat = target := by
  unfold State.labelTarget at h
  split at h
  · split at h
    · split at h
      · exact ⟨‹_›, _, ‹_›, ‹_›, Option.some.inj h⟩
      · cases h
    · cases h
  · cases h

/-- If a taken jump answers a next state: the pc is the label's address, or UndefinedLabel is taken. -/
theorem takeJump_next {id : Nat} {s t : State} (h : takeJump id s = .next t) :
    (∃ target, s.labelTarget id = some target ∧ t = s.setPc target) ∨
      (s.labelTarget id = none ∧
        ∃ w, s.wordAtPc = some w ∧ t = s.enterFault .undefinedLabel (BitVec.ofNat 32 id) w) := by
  unfold takeJump at h
  split at h
  · exact Or.inl ⟨_, ‹_›, (Host.Outcome.next.inj h).symm⟩
  · exact Or.inr ⟨‹_›, takeFault_next h⟩

/-- If a conditional jump answers a next state: not taken and advanced, or what the taken jump gives. -/
theorem jumpIf_next {taken : Bool} {id : Nat} {s t : State} (h : jumpIf taken id s = .next t) :
    (taken = false ∧ t = s.advance) ∨ (taken = true ∧ takeJump id s = .next t) := by
  unfold jumpIf at h
  split at h
  · exact Or.inr ⟨‹_›, h⟩
  · exact Or.inl ⟨Bool.eq_false_iff.2 ‹_›, (Host.Outcome.next.inj h).symm⟩

/-- If writing an exact result answers a next state: bits32 of it was written, or ArithmeticOverflow was taken. -/
theorem writeExact_next {rd : Reg} {r : Int} {s t : State} (h : writeExact rd r s = .next t) :
    t = (s.setReg rd (bits32 r)).advance ∨
      (fitsSigned r = false ∧ s.params.ovfMode = .fault ∧
        ∃ w, s.wordAtPc = some w ∧ t = s.enterFault .arithmeticOverflow 0 w) := by
  unfold writeExact writeBack at h
  split at h
  · exact Or.inl (Host.Outcome.next.inj h).symm
  · split at h
    · exact Or.inl (Host.Outcome.next.inj h).symm
    · exact Or.inr ⟨Bool.eq_false_iff.2 ‹_›, ‹_›, takeFault_next h⟩

theorem writeExact_eq {rd : Reg} {r : Int} {s : State}
    (h : fitsSigned r = true ∨ s.params.ovfMode = .wrap) :
    writeExact rd r s = .next ((s.setReg rd (bits32 r)).advance) := by
  unfold writeExact writeBack
  split
  · rfl
  · rcases h with h | h
    · exact absurd h ‹_›
    · simp [h]

theorem dataIndex_eq_some {depth : Nat} {a : Int} {k : Nat} :
    dataIndex depth a = some k ↔ a = (k : Int) ∧ k < depth := by
  unfold dataIndex
  split <;> simp <;> omega

theorem dataIndex_eq_none {depth : Nat} {a : Int} : dataIndex depth a = none ↔ ¬ (0 ≤ a ∧ a < depth) := by
  unfold dataIndex
  split <;> simp_all

/-- An accepted image (R37, R38, R302): it is written, PROG_LEN is at most IMEM_DEPTH, the words and the label entries are
all there, and no valid entry points above the end. -/
theorem imageProblem_eq_none {s : State} (h : s.imageProblem = none) :
    s.progLen ≠ none ∧ s.len ≤ s.params.imemDepth.val ∧ listsAllBelow s.len s.imem = true ∧
      listsAllBelow s.params.labelCap.val s.lt = true ∧
      ∀ c ∈ s.lt, c.2.v = true → c.2.addr.toNat ≤ s.len := by
  unfold State.imageProblem at h
  split at h
  · cases h
  · split at h
    · cases h
    · split at h
      · cases h
      · split at h
        · cases h
        · rename_i h1 h2 h3 h4
          simp at h2 h3 h4
          exact ⟨h1, h2, h3.1, h3.2, fun c hc hv => h4 c.1 c.2 hc hv⟩

/-- With an accepted image a label resolves to an address in [0, len] (R202). -/
theorem labelTarget_le_len {s : State} (h : s.imageProblem = none) {id target : Nat}
    (ht : s.labelTarget id = some target) : target ≤ s.len := by
  obtain ⟨-, e, he, hv, rfl⟩ := labelTarget_eq_some ht
  exact (imageProblem_eq_none h).2.2.2.2 _ (mem_of_cellAt he) hv

/-- With an accepted image the word at a pc below len is there (R133). -/
theorem wordAtPc_of_fetching {s : State} (h : s.fetching) : ∃ w, s.wordAtPc = some w := by
  obtain ⟨-, -, hi, hp⟩ := h
  exact Option.isSome_iff_exists.1
    (cellAt_isSome_of_listsAllBelow hp (imageProblem_eq_none hi).2.2.1)

/-- Everything a step can do before its instruction, if it has one to run: it is fetching, and the word at the pc
decodes to that instruction. -/
theorem beginStep_ok {s : State} {i : Instr} (h : beginStep s = .ok i) :
    s.fetching ∧ ∃ w, s.wordAtPc = some w ∧ decode s.params.nreg w = .ok i := by
  unfold beginStep at h
  split at h
  · cases h
  · split at h
    · cases h
    · split at h
      · cases h
      · split at h
        · cases h
        · split at h
          · cases h
          · split at h
            · cases h
            · rename_i h1 h2 _ h3 h4 _ w h5 _ j h6
              cases h
              exact ⟨⟨by simpa using h1, by simpa using h2, h3, by omega⟩, w, h5, h6⟩

/-- Everything a step can do that ends without running an instruction. -/
theorem beginStep_error {s : State} {r : Result} (h : beginStep s = .error r) :
    (s.rst = true ∧ r = .next s) ∨
      (s.status ≠ .running ∧ r = .next s) ∨
      (∃ e, s.imageProblem = some e ∧ r = .refused e) ∨
      (s.rst = false ∧ s.status = .running ∧ s.imageProblem = none ∧ s.len ≤ s.pc ∧ r = .next s.halt) ∨
      (s.fetching ∧ ∃ w e, s.wordAtPc = some w ∧ decode s.params.nreg w = .error e ∧
        r = .next (s.enterFault (decodeFaultCause e) (decodeFaultInfo e) w)) := by
  by_cases h1 : s.rst = true
  · exact Or.inl ⟨h1, by simpa [beginStep, h1, eq_comm] using h⟩
  by_cases h2 : s.status = .running
  · right; right
    cases h3 : s.imageProblem with
    | some e => exact Or.inl ⟨e, rfl, by simpa [beginStep, h1, h2, h3, eq_comm] using h⟩
    | none =>
      right
      by_cases h4 : s.len ≤ s.pc
      · exact Or.inl ⟨by simpa using h1, h2, rfl, h4, by simpa [beginStep, h1, h2, h3, h4, eq_comm] using h⟩
      · have hf : s.fetching := ⟨by simpa using h1, h2, h3, by omega⟩
        obtain ⟨w, hw⟩ := wordAtPc_of_fetching hf
        cases hd : decode s.params.nreg w with
        | ok i => simp [beginStep, h1, h2, h3, h4, hw, hd] at h
        | error e =>
          refine Or.inr ⟨hf, w, e, hw, hd, ?_⟩
          simpa [beginStep, h1, h2, h3, h4, hw, hd, takeFault_eq hw, eq_comm] using h
  · exact Or.inr (Or.inl ⟨h2, by simpa [beginStep, h1, h2, eq_comm] using h⟩)

/-- A fetching state whose word decodes begins its step with that instruction. -/
theorem beginStep_eq_ok {s : State} (hf : s.fetching) {w : InstrWord} (hw : s.wordAtPc = some w) {i : Instr}
    (hd : decode s.params.nreg w = .ok i) : beginStep s = .ok i := by
  obtain ⟨h1, h2, h3, h4⟩ := hf
  have h5 : ¬ s.len ≤ s.pc := by omega
  simp [beginStep, h1, h2, h3, h5, hw, hd]

end Sys2Proof.Machine
end

