-- ==== Sys2Proof/Laws/Exec.lean ====
section
/-! SUPPORT. Everything an instruction can do, once: the case analysis every frame and invariant is read from. -/

namespace Sys2Proof.Machine

/-- If an instruction answers a next state, it has one of seven effects. -/
inductive Effect (i : Instr) (s : State) : State → Prop where
  /-- Its destination register is written. -/
  | register (rd : Reg) (v : Word) (h : destination i = some rd) : Effect i s ((s.setReg rd v).advance)
  /-- STORE writes a word at a valid index. -/
  | memory (rd : Reg) (k : Nat) (h : i = .store rd (k : Int)) (hk : k < s.params.dmemDepth) :
      Effect i s ((s.setMem k (s.reg rd)).advance)
  /-- CMP writes the flag. -/
  | flag (rd rs : Reg) (h : i = .cmp rd rs) :
      Effect i s ((s.setFlag (compareFlag (sint (s.reg rd)) (sint (s.reg rs)))).advance)
  /-- PRINT appends an event. -/
  | output (rd : Reg) (h : i = .print rd) : Effect i s ((s.emit rd (s.reg rd)).advance)
  /-- A taken jump goes to its label's address. -/
  | jump (id target : Nat) (h : takenLabel i s.flag = some id) (ht : s.labelTarget id = some target) :
      Effect i s (s.setPc target)
  /-- A conditional jump that is not taken advances. -/
  | untaken (h : readsFlag i = true) (hn : takenLabel i s.flag = none) : Effect i s s.advance
  /-- A fault is taken. -/
  | fault (c : Cause) (info : Word) (w : InstrWord) (hc : c ≠ .none) (hw : s.wordAtPc = some w) :
      Effect i s (s.enterFault c info w)

theorem effect_of_takeFault {i : Instr} {s t : State} {c : Cause} {info : Word} (hc : c ≠ .none)
    (h : takeFault c info s = .next t) : Effect i s t := by
  obtain ⟨w, hw, rfl⟩ := takeFault_next h
  exact .fault c info w hc hw

theorem effect_of_writeBack {i : Instr} {s t : State} {rd : Reg} {v : Word} (hd : destination i = some rd)
    (h : writeBack rd v s = .next t) : Effect i s t := by
  cases h
  exact .register rd v hd

theorem effect_of_writeExact {i : Instr} {s t : State} {rd : Reg} {r : Int} (hd : destination i = some rd)
    (h : writeExact rd r s = .next t) : Effect i s t := by
  obtain rfl | ⟨-, -, w, hw, rfl⟩ := writeExact_next h
  · exact .register rd _ hd
  · exact .fault _ _ w (by simp) hw

theorem effect_of_takeJump {i : Instr} {s t : State} {id : Nat} (hi : takenLabel i s.flag = some id)
    (h : takeJump id s = .next t) : Effect i s t := by
  obtain ⟨target, ht, rfl⟩ | ⟨-, w, hw, rfl⟩ := takeJump_next h
  · exact .jump id target hi ht
  · exact .fault _ _ w (by simp) hw

theorem effect_of_jumpIf {i : Instr} {s t : State} {id : Nat} {taken : Bool} (hr : readsFlag i = true)
    (hi : takenLabel i s.flag = if taken then some id else none) (h : jumpIf taken id s = .next t) :
    Effect i s t := by
  obtain ⟨hf, rfl⟩ | ⟨ht, h⟩ := jumpIf_next h
  · exact .untaken hr (by simpa [hf] using hi)
  · exact effect_of_takeJump (by simpa [ht] using hi) h

theorem exec_next {i : Instr} {s t : State} (h : exec i s = .next t) : Effect i s t := by
  cases i with
  | load rd imm => exact effect_of_writeBack rfl h
  | store rd addr =>
    simp only [exec, execStore] at h
    split at h
    · rename_i k hk
      cases h
      obtain ⟨ha, hk⟩ := dataIndex_eq_some.1 hk
      exact .memory rd k (by rw [ha]) hk
    · exact effect_of_takeFault (by simp) h
  | loadm rd addr =>
    simp only [exec, execLoadm] at h
    split at h
    · exact effect_of_writeBack rfl h
    · exact effect_of_takeFault (by simp) h
  | add rd rs => exact effect_of_writeExact rfl h
  | sub rd rs => exact effect_of_writeExact rfl h
  | mul rd rs => exact effect_of_writeExact rfl h
  | div rd rs =>
    simp only [exec, execDiv] at h
    split at h
    · exact effect_of_takeFault (by simp) h
    · split at h
      · split at h
        · exact effect_of_takeFault (by simp) h
        · exact effect_of_writeBack rfl h
      · exact effect_of_writeBack rfl h
  | mov rd rs => exact effect_of_writeBack rfl h
  | cmp rd rs =>
    cases h
    exact .flag rd rs rfl
  | jmp id => exact effect_of_takeJump rfl h
  | jne id => exact effect_of_jumpIf rfl (by cases hf : s.flag <;> simp [takenLabel, flagNotEqual]) h
  | jeq id => exact effect_of_jumpIf rfl (by cases hf : s.flag <;> simp [takenLabel, flagEqual]) h
  | jgt id => exact effect_of_jumpIf rfl (by cases hf : s.flag <;> simp [takenLabel, flagGreater]) h
  | jlt id => exact effect_of_jumpIf rfl (by cases hf : s.flag <;> simp [takenLabel, flagLess]) h
  | print rd =>
    cases h
    exact .output rd rfl
  | and rd rs => exact effect_of_writeBack rfl h
  | or rd rs => exact effect_of_writeBack rfl h
  | xor rd rs => exact effect_of_writeBack rfl h
  | not rd => exact effect_of_writeBack rfl h

end Sys2Proof.Machine
end

