-- ==== Sys2Proof/Laws/Host.lean ====
section
/-! SUPPORT. Sequences of host events, and everything one host write can do. -/

namespace Sys2Proof.Machine

theorem hostEvents_append (first second : List HostEvent) (s : State) :
    hostEvents (first ++ second) s =
      match hostEvents first s with
      | .next t => hostEvents second t
      | .fault r => .fault r
      | .refused r => .refused r := by
  induction first generalizing s with
  | nil => rfl
  | cons e rest ih =>
    simp only [List.cons_append, hostEvents]
    cases hostEvent e s with
    | next t => exact ih t
    | fault r => rfl
    | refused r => rfl

theorem hostWriteImem_eq {s : State} (hr : s.rst = true) {addr : BitVec 10} (ha : addr.toNat < s.params.imemDepth.val)
    (data : InstrWord) :
    hostWriteImem addr data s = .next { s with imem := cellSet addr.toNat data s.imem } := by
  simp [hostWriteImem, hr, ha]

theorem hostWriteLabel_eq {s : State} (hr : s.rst = true) {id : BitVec 7} (hi : id.toNat < s.params.labelCap.val)
    (data : BitVec 11) :
    hostWriteLabel id data s = .next { s with lt := cellSet id.toNat (labelEntryOfBits data) s.lt } := by
  simp [hostWriteLabel, hr, hi]

theorem hostSetProgLen_eq {s : State} (hr : s.rst = true) (n : BitVec 10) :
    hostSetProgLen n s = .next { s with progLen := some n } := by
  simp [hostSetProgLen, hr]

end Sys2Proof.Machine
end

