-- ==== Sys2Proof/Laws/PerInstr.lean ====
section
/-! SUPPORT. Statements made instruction by instruction about their encoding: the family CoreWord says that the word of
every instruction has z zero (R87) and an opcode of the map of R88. -/

namespace Sys2Proof.Laws.CoreWord

/-- The instruction's word has z zero and an opcode in 0x01..0x13 (R87, R88). -/
def Statement (i : Instr) : Prop :=
  wordZ (encode i) = 0 ∧ 0x01 ≤ (wordOpcode (encode i)).toNat ∧ (wordOpcode (encode i)).toNat ≤ 0x13

/-- Both halves for any word packed with an opcode of the map. -/
theorem of_packWord (op : BitVec 8) (rd rs : BitVec 4) (imm : BitVec 32) (low : 0x01 ≤ op.toNat)
    (high : op.toNat ≤ 0x13) :
    wordZ (packWord op rd rs imm) = 0 ∧ 0x01 ≤ (wordOpcode (packWord op rd rs imm)).toNat ∧
      (wordOpcode (packWord op rd rs imm)).toNat ≤ 0x13 := by
  rw [wordZ_packWord, wordOpcode_packWord]
  exact ⟨rfl, low, high⟩

theorem load (rd : Reg) (imm : Word) : Statement (.load rd imm) := of_packWord _ _ _ _ (by decide) (by decide)
theorem store (rd : Reg) (addr : Int) : Statement (.store rd addr) := of_packWord _ _ _ _ (by decide) (by decide)
theorem loadm (rd : Reg) (addr : Int) : Statement (.loadm rd addr) := of_packWord _ _ _ _ (by decide) (by decide)
theorem add (rd rs : Reg) : Statement (.add rd rs) := of_packWord _ _ _ _ (by decide) (by decide)
theorem sub (rd rs : Reg) : Statement (.sub rd rs) := of_packWord _ _ _ _ (by decide) (by decide)
theorem mul (rd rs : Reg) : Statement (.mul rd rs) := of_packWord _ _ _ _ (by decide) (by decide)
theorem div (rd rs : Reg) : Statement (.div rd rs) := of_packWord _ _ _ _ (by decide) (by decide)
theorem mov (rd rs : Reg) : Statement (.mov rd rs) := of_packWord _ _ _ _ (by decide) (by decide)
theorem cmp (rd rs : Reg) : Statement (.cmp rd rs) := of_packWord _ _ _ _ (by decide) (by decide)
theorem jmp (id : Nat) : Statement (.jmp id) := of_packWord _ _ _ _ (by decide) (by decide)
theorem jne (id : Nat) : Statement (.jne id) := of_packWord _ _ _ _ (by decide) (by decide)
theorem jeq (id : Nat) : Statement (.jeq id) := of_packWord _ _ _ _ (by decide) (by decide)
theorem jgt (id : Nat) : Statement (.jgt id) := of_packWord _ _ _ _ (by decide) (by decide)
theorem jlt (id : Nat) : Statement (.jlt id) := of_packWord _ _ _ _ (by decide) (by decide)
theorem print (rd : Reg) : Statement (.print rd) := of_packWord _ _ _ _ (by decide) (by decide)
theorem and (rd rs : Reg) : Statement (.and rd rs) := of_packWord _ _ _ _ (by decide) (by decide)
theorem or (rd rs : Reg) : Statement (.or rd rs) := of_packWord _ _ _ _ (by decide) (by decide)
theorem xor (rd rs : Reg) : Statement (.xor rd rs) := of_packWord _ _ _ _ (by decide) (by decide)
theorem not (rd : Reg) : Statement (.not rd) := of_packWord _ _ _ _ (by decide) (by decide)

end Sys2Proof.Laws.CoreWord
end

