-- ==== Sys2Proof/Tests/Slice0.lean ====
section
/-! SUPPORT. Small tests on fixed values. Expected results are the spec's own: the worked examples of the instruction
rules, the vectors of 95_test_vectors.md and the tables they cite, each named in its comment. -/

namespace Sys2Proof.Tests

open Sys2Proof.Machine

/-! ### Helpers -/

/-- A running machine with a program of the given words and every label entry invalid, as R114 writes them. -/
def loaded (words : List InstrWord) : State :=
  { State.reset with
    imem := (List.range words.length).zip words
    progLen := some (BitVec.ofNat 10 words.length)
    lt := (List.range 100).map (fun id => (id, { v := false, addr := 0 })) }

theorem loaded_reg (words : List InstrWord) (r : Reg) : (loaded words).reg r = 0 := by
  simp [loaded, State.reset, State.resetValues, State.reg]

/-- The state with a valid label 0. -/
def withLabel (addr : BitVec 10) (s : State) : State := { s with lt := cellSet 0 { v := true, addr := addr } s.lt }

/-- The state with other parameters. -/
def withModes (ovf divOvf : OverflowMode) (s : State) : State :=
  { s with params := { s.params with ovfMode := ovf, divOvfMode := divOvf } }

/-- One step's next state, seen through `view`. -/
def after {α : Type} (s : State) (view : State → α) : Option α := (nextState (step s)).map view

/-- What fault entry writes, and the pc (R270). -/
def faultView (s : State) : Status × Cause × Nat × InstrWord × Word × Nat :=
  (s.status, s.cause, s.faultPc, s.faultWord, s.faultInfo, s.pc)

/-- The state of a machine with other capacities: NREG, DMEM_DEPTH, IMEM_DEPTH, LABEL_CAP (R7). -/
def withCapacities (nreg : RegCount) (dmemDepth : Nat) (imemDepth : Fin 1024) (labelCap : Fin 129) (s : State) : State :=
  { s with
    params := { s.params with nreg := nreg, dmemDepth := dmemDepth, imemDepth := imemDepth, labelCap := labelCap } }

/-! ### WellFormed: an ill-formed term for each check, refused (R84 to R86) -/

theorem test_wf_registers :
    [Instr.load 4 0, .store 4 0, .loadm 4 0, .add 4 0, .sub 0 4, .mul 4 0, .div 0 4, .mov 4 0, .cmp 0 4, .print 4,
      .and 4 0, .or 0 4, .xor 4 0, .not 4].map (Instr.wellFormed 4) = List.replicate 14 false := by decide

theorem test_wf_store_address_high : Instr.wellFormed 10 (.store 0 2147483648) = false := by decide
theorem test_wf_store_address_low : Instr.wellFormed 10 (.store 0 (-2147483649)) = false := by decide
theorem test_wf_loadm_address_high : Instr.wellFormed 10 (.loadm 9 2147483648) = false := by decide
theorem test_wf_label_jmp : Instr.wellFormed 10 (.jmp 4294967296) = false := by decide
theorem test_wf_label_jne : Instr.wellFormed 10 (.jne 4294967296) = false := by decide
theorem test_wf_label_jeq : Instr.wellFormed 10 (.jeq 4294967296) = false := by decide
theorem test_wf_label_jgt : Instr.wellFormed 10 (.jgt 4294967296) = false := by decide
theorem test_wf_label_jlt : Instr.wellFormed 10 (.jlt 4294967296) = false := by decide
theorem test_wf_boundaries :
    Instr.wellFormed 10 (.store 0 2147483647) = true ∧ Instr.wellFormed 10 (.loadm 0 (-2147483648)) = true ∧
      Instr.wellFormed 10 (.jmp 4294967295) = true := by decide

/-! ### Decoding: a word of each constructor, from the rules' examples and 95 section 2 -/

/-- What the decoder reads from a word, if it is an instruction. -/
def decoded (w : InstrWord) : Option Instr := decodeTableWord 64 w.toNat

theorem test_decode_load : decoded 0x01300000FFFFFFFF = some (.load 3 0xFFFFFFFF) := by decide
theorem test_decode_store : decoded 0x02200000000003E7 = some (.store 2 999) := by decide
theorem test_decode_store_negative : decoded 0x02200000FFFFFFFF = some (.store 2 (-1)) := by decide
theorem test_decode_loadm : decoded 0x034000000000000A = some (.loadm 4 10) := by decide
theorem test_decode_add : decoded 0x0401000000000000 = some (.add 0 1) := by decide
theorem test_decode_sub : decoded 0x0523000000000000 = some (.sub 2 3) := by decide
theorem test_decode_mul : decoded 0x0645000000000000 = some (.mul 4 5) := by decide
theorem test_decode_div : decoded 0x0767000000000000 = some (.div 6 7) := by decide
theorem test_decode_mov : decoded 0x0889000000000000 = some (.mov 8 9) := by decide
theorem test_decode_cmp : decoded 0x0910000000000000 = some (.cmp 1 0) := by decide
theorem test_decode_jmp : decoded 0x0A00000000000064 = some (.jmp 100) := by decide
theorem test_decode_jne : decoded 0x0B00000000000003 = some (.jne 3) := by decide
theorem test_decode_jeq : decoded 0x0C00000000000001 = some (.jeq 1) := by decide
theorem test_decode_jgt : decoded 0x0D00000000000000 = some (.jgt 0) := by decide
theorem test_decode_jlt : decoded 0x0E000000FFFFFFFF = some (.jlt 4294967295) := by decide
theorem test_decode_print : decoded 0x0F90000000000000 = some (.print 9) := by decide
theorem test_decode_and : decoded 0x1034000000000000 = some (.and 3 4) := by decide
theorem test_decode_or : decoded 0x1101000000000000 = some (.or 0 1) := by decide
theorem test_decode_xor : decoded 0x1242000000000000 = some (.xor 4 2) := by decide
theorem test_decode_not : decoded 0x1350000000000000 = some (.not 5) := by decide

/-- LOAD R3, -1 written out bit by bit from R81: opcode, rd, rs, z, imm. -/
theorem test_decode_load_bits :
    decoded 0b0000000100110000000000000000000011111111111111111111111111111111 = some (.load 3 0xFFFFFFFF) := by
  decide

/-- DIV R6, R7, bit by bit. -/
theorem test_decode_div_bits :
    decoded 0b0000011101100111000000000000000000000000000000000000000000000000 = some (.div 6 7) := by
  decide

/-- JNE with label id 3, bit by bit. -/
theorem test_decode_jne_bits :
    decoded 0b0000101100000000000000000000000000000000000000000000000000000011 = some (.jne 3) := by
  decide

/-- PRINT R9, bit by bit. -/
theorem test_decode_print_bits :
    decoded 0b0000111110010000000000000000000000000000000000000000000000000000 = some (.print 9) := by
  decide

/-- XOR R4, R2, bit by bit. -/
theorem test_decode_xor_bits :
    decoded 0b0001001001000010000000000000000000000000000000000000000000000000 = some (.xor 4 2) := by
  decide

/-- The refused words of 95 section 2, by the field FAULT_INFO names. -/
theorem test_decode_refusals :
    ([0x0000000000000000, 0x1400000000000000, 0x14A0000100000000, 0x01A0000000000005, 0x040F000000000000,
      0x0101000000000005, 0x0400000100000000, 0x0401000000000001, 0x0A10000000000000, 0x04AF000100000001].map
        (firstDecodeFault 10))
      = [some (.unknownInstruction 0), some (.unknownInstruction 0x14), some (.unknownInstruction 0x14),
         some (.illegalInstruction .rd), some (.illegalInstruction .rs), some (.illegalInstruction .rs),
         some (.illegalInstruction .z), some (.illegalInstruction .imm), some (.illegalInstruction .rd),
         some (.illegalInstruction .rd)] := by decide

/-! ### The instructions, one step each (95 section 2) -/

theorem test_load_negative :
    after (loaded [0x01300000FFFFFFFF]) (fun t => (t.reg 3, t.pc)) = some (0xFFFFFFFF, 1) := by decide

theorem test_store_last_word :
    after ((loaded [0x02200000000003E7]).setReg 2 7) (fun t => (t.mem 999, t.mem 998, t.pc)) = some (7, 0, 1) := by
  decide

theorem test_store_out_of_bounds :
    after ((loaded [0x02200000000003E8]).setReg 2 7) faultView =
      some (.faulted, .memoryOutOfBounds, 0, 0x02200000000003E8, 0x000003E8, 0) := by decide

theorem test_loadm_last_word :
    after ((loaded [0x03400000000003E7]).setMem 999 0xFFFFFFFE) (fun t => (t.reg 4, t.pc)) = some (0xFFFFFFFE, 1) := by
  decide

theorem test_loadm_negative_address :
    after ((loaded [0x0340000080000000]).setReg 4 3) (fun t => (t.reg 4, t.cause, t.faultInfo)) =
      some (3, .memoryOutOfBounds, 0x80000000) := by decide

theorem test_add_wraps :
    after (((loaded [0x0401000000000000]).setReg 0 0x7FFFFFFF).setReg 1 1) (fun t => (t.reg 0, t.pc)) =
      some (0x80000000, 1) := by decide

theorem test_add_faults :
    after (withModes .fault .fault (((loaded [0x0401000000000000]).setReg 0 0x7FFFFFFF).setReg 1 1))
        (fun t => (t.reg 0, t.cause, t.pc)) =
      some (0x7FFFFFFF, .arithmeticOverflow, 0) := by decide

theorem test_sub_order :
    after (((loaded [0x0523000000000000]).setReg 2 3).setReg 3 10) (fun t => (t.reg 2, t.reg 3)) =
      some (0xFFFFFFF9, 10) := by decide

theorem test_sub_itself :
    after ((loaded [0x0511000000000000]).setReg 1 77) (fun t => (t.reg 1, t.pc)) = some (0, 1) := by decide

theorem test_mul_negative :
    after (((loaded [0x0645000000000000]).setReg 4 0xFFFFFFFA).setReg 5 7) (fun t => t.reg 4) =
      some 0xFFFFFFD6 := by decide

theorem test_mul_low_half :
    after (((loaded [0x0645000000000000]).setReg 4 65536).setReg 5 65536) (fun t => (t.reg 4, t.status)) =
      some (0, .running) := by decide

theorem test_div_truncates :
    after (((loaded [0x0767000000000000]).setReg 6 0xFFFFFFF9).setReg 7 2) (fun t => t.reg 6) =
      some 0xFFFFFFFD := by decide

theorem test_div_by_zero :
    after ((loaded [0x0767000000000000]).setReg 6 5) (fun t => (t.reg 6, t.cause, t.faultInfo)) =
      some (5, .divisionByZero, 7) := by decide

theorem test_mov :
    after ((loaded [0x0889000000000000]).setReg 9 0x80000000) (fun t => (t.reg 8, t.reg 9)) =
      some (0x80000000, 0x80000000) := by decide

theorem test_cmp_signed :
    after (((loaded [0x0901000000000000]).setReg 0 0x80000000).setReg 1 0x7FFFFFFF) (fun t => (t.flag, t.pc)) =
      some (.less, 1) := by decide

theorem test_cmp_greater :
    after (((loaded [0x0901000000000000]).setReg 0 5).setReg 1 3) (fun t => t.flag) = some .greater := by decide

theorem test_jmp_to_end : after (withLabel 1 (loaded [0x0A00000000000000])) (fun t => (t.pc, t.status)) =
    some (1, .running) := by decide

theorem test_jmp_undefined :
    after (loaded [0x0A00000000000064]) faultView =
      some (.faulted, .undefinedLabel, 0, 0x0A00000000000064, 100, 0) := by decide

theorem test_jne_taken :
    after (withLabel 0 ((loaded [0x0B00000000000000]).setFlag .less)) (fun t => t.pc) = some 0 := by decide

theorem test_jne_not_taken :
    after (withLabel 0 ((loaded [0x0B00000000000000]).setFlag .equal)) (fun t => t.pc) = some 1 := by decide

theorem test_jeq_taken_undefined :
    after ((loaded [0x0C000000FFFFFFFF]).setFlag .equal) faultView =
      some (.faulted, .undefinedLabel, 0, 0x0C000000FFFFFFFF, 0xFFFFFFFF, 0) := by decide

theorem test_jeq_not_taken_undefined :
    after ((loaded [0x0C000000FFFFFFFF]).setFlag .less) (fun t => (t.pc, t.status)) = some (1, .running) := by decide

theorem test_jgt_taken :
    after (withLabel 0 ((loaded [0x0D00000000000000]).setFlag .greater)) (fun t => t.pc) = some 0 := by decide

theorem test_jgt_not_taken :
    after (withLabel 0 ((loaded [0x0D00000000000000]).setFlag .less)) (fun t => t.pc) = some 1 := by decide

theorem test_jlt_taken :
    after (withLabel 0 ((loaded [0x0E00000000000000]).setFlag .less)) (fun t => t.pc) = some 0 := by decide

theorem test_jlt_not_taken :
    after (withLabel 0 ((loaded [0x0E00000000000000]).setFlag .greater)) (fun t => t.pc) = some 1 := by decide

theorem test_print :
    after ((loaded [0x0F90000000000000]).setReg 9 0xFFFFFFFF) (fun t => (t.out, t.pc)) =
      some ([(9, 0xFFFFFFFF)], 1) := by decide

theorem test_and :
    after (((loaded [0x1001000000000000]).setReg 0 12).setReg 1 10) (fun t => t.reg 0) = some 8 := by decide

theorem test_or :
    after (((loaded [0x1101000000000000]).setReg 0 12).setReg 1 10) (fun t => t.reg 0) = some 14 := by decide

theorem test_xor :
    after (((loaded [0x1201000000000000]).setReg 0 5).setReg 1 0xFFFFFFFF) (fun t => t.reg 0) =
      some 0xFFFFFFFA := by decide

theorem test_not :
    after ((loaded [0x1350000000000000]).setReg 5 0x7FFFFFFF) (fun t => t.reg 5) = some 0x80000000 := by decide

/-! ### The step -/

/-- 95 section 2, halt: an empty program halts on its first step. -/
theorem test_halt_empty : after (loaded []) (fun t => (t.status, t.pc, t.cause)) = some (.halted, 0, .none) := by decide

/-- R131: a halted block takes no step. -/
theorem test_no_step_when_halted : nextState (step (loaded []).halt) = some (loaded []).halt := by decide

/-- 95 section 2, decode: word 0. -/
theorem test_unknown_word :
    after (loaded [0]) faultView = some (.faulted, .unknownInstruction, 0, 0, 0, 0) := by decide

/-- 95 section 2, decode: the first bad field decides. -/
theorem test_illegal_word :
    after (loaded [0x0101000000000005]) faultView =
      some (.faulted, .illegalInstruction, 0, 0x0101000000000005, 2, 0) := by decide

/-- R302: right after reset no image is written, and the step is refused. -/
theorem test_reset_has_no_image : State.reset.imageProblem = some .imageNotWritten := by decide

/-- The state the host asks about runs the placed word. -/
theorem test_with_fetch_word :
    after (State.reset.withFetchWord 64 0x0130000000000005) (fun t => (t.reg 3, t.pc)) = some (5, 1) := by decide

/-! ### Machines of other capacities (R7): 4 registers, 8 data words, 2 instruction words, 1 label -/

theorem test_capacity_nreg :
    after (withCapacities 4 8 2 1 (loaded [0x0404000000000000])) faultView =
      some (.faulted, .illegalInstruction, 0, 0x0404000000000000, 2, 0) := by decide

theorem test_capacity_dmem :
    after (withCapacities 4 8 2 1 (loaded [0x0220000000000008])) (fun t => (t.cause, t.faultInfo)) =
        some (.memoryOutOfBounds, 8) ∧
      after ((withCapacities 4 8 2 1 (loaded [0x0220000000000007])).setReg 2 5) (fun t => t.mem 7) = some 5 := by decide

theorem test_capacity_labels :
    after (withLabel 1 (withCapacities 4 8 2 1 (loaded [0x0A00000000000000]))) (fun t => t.pc) = some 1 ∧
      after (withCapacities 4 8 2 1 (loaded [0x0A00000000000001])) (fun t => (t.cause, t.faultInfo)) =
        some (.undefinedLabel, 1) := by decide

theorem test_capacity_assembler :
    ["NOT R3\nNOT R0", "NOT R4", "NOT R0\nNOT R0\nNOT R0", "a:\nb:"].map
        (fun text => match assemble (withCapacities 4 8 2 1 State.reset).params text.toList with
          | .ok _ => none
          | .error e => some e) =
      [none, some .parseError, some .capacityExceeded, some .capacityExceeded] := by decide

/-! ### The host's side -/

/-- R45, R38: a label write of {v = 1, addr = 8} under reset. -/
theorem test_label_write :
    (nextState (hostEvents [.assertRst, .writeLabel 1 0b10000001000] State.reset)).map (fun t => cellAt 1 t.lt) =
      some (some { v := true, addr := 8 }) := by decide

/-- R48: the debug ports of a halted block. -/
theorem test_debug_ports :
    ((loaded []).setReg 3 9).halt.debugReg 77 3 = 9 ∧ ((loaded []).setReg 3 9).halt.debugReg 77 12 = 0 ∧
      ((loaded []).setMem 999 4).halt.debugMem 77 999 = 4 ∧ (loaded []).halt.debugMem 77 1000 = 0 := by decide

/-- What the assembler makes of a text. -/
def assembled (text : String) : Option Program :=
  match assemble Params.default text.toList with
  | .ok p => some p
  | .error _ => none

/-- 95 section 3 and program P4's label at the end: separators, an unknown mnemonic, an undefined label. -/
theorem test_assemble_lines :
    assembled "LOAD R0 5\nFOO R0\n\nJMP nowhere\nend:\r\n" =
      some { words := [0x0100000000000005, 0, 0x0A000000FFFFFFFF], labels := [3] } := by decide

/-- 95 section 3: the texts that are parse errors. -/
theorem test_assemble_parse_errors :
    ["ADD R0", "LOAD R0, R1", "ADD R10, R1", "LOAD r0, 1", "LOAD R0, 2147483648", "LOAD R0, 1, 2",
      "loop: ADD R0, R1", "a:\na:"].map assembled = List.replicate 8 none := by decide

/-- 95 E3: the host prints a value in signed decimal. -/
theorem test_print_line : printLine (7, 0x80000000) = "Value in R7: -2147483648" := by decide

/-- R118: canonical spellings. -/
theorem test_spelling :
    showWordSpelling 10 (fun _ => none) 0x0E000000FFFFFFFF = "JLT L4294967295" ∧
      showWordSpelling 10 (fun _ => none) 0x14A0000100000000 = ".word 0x14A0000100000000" := by decide

/-! ### Witnesses: for every statement with hypotheses, a state and operands that meet them together -/

/-- A state with a word at the pc, two registers at the ends of the signed range and a third at -1. -/
def sample : State := (((loaded [0x0401000000000000]).setReg 0 0x80000000).setReg 1 0x7FFFFFFF).setReg 2 0xFFFFFFFF

theorem witness_word_at_pc : sample.wordAtPc = some 0x0401000000000000 := by decide

/-- StoreWritesOneWordOrFaults, LoadmReadsOneWordOrFaults, StoreThenLoadmRoundTrips: both sides of both bounds. -/
theorem witness_addresses :
    (0 ≤ (0 : Int) ∧ (0 : Int) < sample.params.dmemDepth) ∧
      (0 ≤ (999 : Int) ∧ (999 : Int) < sample.params.dmemDepth) ∧
      ((-1 : Int) < 0 ∨ sample.params.dmemDepth ≤ (-1 : Int)) ∧
      ((1000 : Int) < 0 ∨ sample.params.dmemDepth ≤ (1000 : Int)) ∧ (999 : Int) ≠ 0 := by decide

/-- AddWritesTheSumOrFaults: the sum fits (-1), or does not, in each mode. -/
theorem witness_add :
    (-2147483648 ≤ (sample.reg 0).toInt + (sample.reg 1).toInt ∧
        (sample.reg 0).toInt + (sample.reg 1).toInt ≤ 2147483647) ∧
      ¬ (-2147483648 ≤ (sample.reg 0).toInt + (sample.reg 2).toInt ∧
        (sample.reg 0).toInt + (sample.reg 2).toInt ≤ 2147483647) ∧
      sample.params.ovfMode = .wrap ∧ (withModes .fault .fault sample).params.ovfMode = .fault := by decide

/-- SubWritesTheDifferenceOrFaults. -/
theorem witness_sub :
    (-2147483648 ≤ (sample.reg 0).toInt - (sample.reg 3).toInt ∧
        (sample.reg 0).toInt - (sample.reg 3).toInt ≤ 2147483647) ∧
      ¬ (-2147483648 ≤ (sample.reg 1).toInt - (sample.reg 2).toInt ∧
        (sample.reg 1).toInt - (sample.reg 2).toInt ≤ 2147483647) := by decide

/-- MulWritesTheLowProductOrFaults. -/
theorem witness_mul :
    (-2147483648 ≤ (sample.reg 1).toInt * (sample.reg 2).toInt ∧
        (sample.reg 1).toInt * (sample.reg 2).toInt ≤ 2147483647) ∧
      ¬ (-2147483648 ≤ (sample.reg 0).toInt * (sample.reg 2).toInt ∧
        (sample.reg 0).toInt * (sample.reg 2).toInt ≤ 2147483647) := by decide

/-- DivWritesTheQuotientOrFaults, DivRoundsTowardZero: a zero divisor, an ordinary pair, and -2^31 by -1 in each
mode. -/
theorem witness_div :
    (sample.reg 3).toInt = 0 ∧
      ((sample.reg 2).toInt ≠ 0 ∧ ¬ ((sample.reg 1).toInt = -2147483648 ∧ (sample.reg 2).toInt = -1)) ∧
      ((sample.reg 0).toInt = -2147483648 ∧ (sample.reg 2).toInt = -1) ∧ sample.params.divOvfMode = .fault ∧
      (withModes .wrap .wrap sample).params.divOvfMode = .wrap := by decide

/-- The jump statements: a valid label at the program's end, an entry with v = 0, an id of 100. -/
theorem witness_labels :
    validLabel (withLabel 1 sample) 0 1 ∧ undefinedLabel sample 99 ∧ undefinedLabel sample 100 :=
  ⟨⟨by decide, by decide⟩, .inr ⟨0, by decide⟩, .inl (by decide)⟩

/-- JneJumpsUnlessEqual, JeqJumpsIfEqual, JgtJumpsIfGreater, JltJumpsIfLess: each flag. -/
theorem witness_flags :
    (sample.setFlag .less).flag = .less ∧ (sample.setFlag .greater).flag = .greater ∧
      (sample.setFlag .equal).flag = .equal ∧ (sample.setFlag .less).flag ≠ .equal ∧
      (sample.setFlag .less).flag ≠ .greater ∧ (sample.setFlag .equal).flag ≠ .less := by decide

/-- ArithmeticWrapsModuloTwoTo32. -/
theorem witness_wrap :
    sample.params.ovfMode = .wrap ∧
      (Instr.mul 0 2, (sample.reg 0).toInt * (sample.reg 2).toInt) ∈
        [(Instr.add 0 2, (sample.reg 0).toInt + (sample.reg 2).toInt),
         (Instr.sub 0 2, (sample.reg 0).toInt - (sample.reg 2).toInt),
         (Instr.mul 0 2, (sample.reg 0).toInt * (sample.reg 2).toInt)] := by
  exact ⟨by decide, by simp⟩

/-- OnlyDestinationsAreWritten, InstructionsKeepTheConfiguration, FaultsAreAllOrNothing. -/
theorem witness_destination : ∃ t, exec (.add 0 1) sample = .next t ∧ destination (.add 0 1) ≠ some 2 :=
  ⟨_, rfl, by decide⟩

/-- FlagHasOneWriterAndFourReaders: CMP changes the flag; ADD is no reader of it. -/
theorem witness_flag_change :
    (∃ t, exec (.cmp 0 1) sample = .next t ∧ t.flag ≠ sample.flag) ∧
      ∃ t, readsFlag (.add 0 1) = false ∧ exec (.add 0 1) sample = .next t :=
  ⟨⟨_, rfl, by decide⟩, _, rfl, rfl⟩

/-- DataMemoryHasOneWriterAndOneReader. -/
theorem witness_memory_change :
    (∃ t, exec (.store 0 999) sample = .next t ∧ t.mem 999 ≠ sample.mem 999) ∧
      (∃ t, readsMemory (.store 0 999) = false ∧ exec (.store 0 999) sample = .next t) ∧
      beginStep sample = .ok (.add 0 1) :=
  ⟨⟨_, rfl, by decide⟩, ⟨_, rfl, rfl⟩, by rfl⟩

/-- OnlyPrintAppendsToOut. -/
theorem witness_output_change : ∃ t, exec (.print 0) sample = .next t ∧ t.out ≠ sample.out :=
  ⟨_, rfl, by decide⟩

/-- PcAdvancesJumpsOrStays: an advance, a taken jump, a fault. -/
theorem witness_pc :
    (sample.fetching ∧ beginStep sample = .ok (.add 0 1) ∧ takenLabel (.add 0 1) sample.flag = none ∧
        ∃ t, step sample = .next t ∧ t.status ≠ .faulted) ∧
      (beginStep (withLabel 1 (loaded [0x0A00000000000000])) = .ok (.jmp 0) ∧
        takenLabel (.jmp 0) (withLabel 1 (loaded [0x0A00000000000000])).flag = some 0 ∧
        ∃ t, step (withLabel 1 (loaded [0x0A00000000000000])) = .next t ∧ t.status ≠ .faulted) ∧
      ((loaded [0]).fetching ∧ ∃ t, step (loaded [0]) = .next t ∧ t.status = .faulted) :=
  ⟨⟨⟨by decide, by decide, by decide, by decide⟩, by rfl, by decide, _, rfl, by decide⟩,
    ⟨by rfl, by decide, _, rfl, by decide⟩, ⟨by decide, by decide, by decide, by decide⟩, _, rfl, by decide⟩

/-- DecodeInvertsEncode, EncodeInvertsDecode. -/
theorem witness_round_trip :
    Instr.wellFormed 10 (.store 9 (-2147483648)) = true ∧ Instr.wellFormed 4 (.mov 3 0) = true ∧
      decode 10 0x0290000080000000 = .ok (.store 9 (-2147483648)) :=
  ⟨by decide, by decide, by rfl⟩

/-- StepRunsTheDecodedInstruction. -/
theorem witness_fetching :
    sample.fetching ∧ sample.wordAtPc = some 0x0401000000000000 ∧ decode 10 0x0401000000000000 = .ok (.add 0 1) :=
  ⟨⟨by decide, by decide, by decide, by decide⟩, by decide, by rfl⟩

/-- StepHaltsAtTheEnd, at pc = len. -/
theorem witness_halt :
    (loaded [0]).advance.rst = false ∧ (loaded [0]).advance.status = .running ∧
      (loaded [0]).advance.imageProblem = none ∧ (loaded [0]).advance.len ≤ (loaded [0]).advance.pc := by decide

/-- NoStepOutsideRunning, both ways. -/
theorem witness_no_step :
    (sample.halt.status ≠ .running ∨ sample.halt.rst = true) ∧
      (sample.assertReset.status ≠ .running ∨ sample.assertReset.rst = true) := by decide

/-- DecodeFaultsAreTaken, both faults. -/
theorem witness_decode_faults :
    ((loaded [0xFF00000000000000]).fetching ∧ (loaded [0xFF00000000000000]).wordAtPc = some 0xFF00000000000000 ∧
        firstDecodeFault 10 0xFF00000000000000 = some (.unknownInstruction 0xFF)) ∧
      ((loaded [0x0F00000000000001]).fetching ∧ (loaded [0x0F00000000000001]).wordAtPc = some 0x0F00000000000001 ∧
        firstDecodeFault 10 0x0F00000000000001 = some (.illegalInstruction .imm)) :=
  ⟨⟨⟨by decide, by decide, by decide, by decide⟩, by decide, by decide⟩,
    ⟨⟨by decide, by decide, by decide, by decide⟩, by decide, by decide⟩⟩

/-- StepAlwaysCompletes: an accepted image, and a refused step. -/
theorem witness_images : sample.imageProblem = none ∧ step State.reset = .refused .imageNotWritten :=
  ⟨by decide, by rfl⟩

/-- BadImagesAreRefused: nothing written; PROG_LEN 1001; a word and a label entry missing; a label above the end. -/
theorem witness_bad_images :
    (State.reset.rst = false ∧ State.reset.status = .running ∧ State.reset.progLen = none) ∧
      sample.params.imemDepth.val < State.len { sample with progLen := some 1001 } ∧
      (1 < State.len { sample with progLen := some 2 } ∧ cellAt 1 sample.imem = none) ∧
      ((99 : Nat) < sample.params.labelCap.val ∧ cellAt 99 (cellErase 99 sample.lt) = none) ∧
      (validLabel (withLabel 2 sample) 0 2 ∧ (withLabel 2 sample).len < (2 : BitVec 10).toNat) :=
  ⟨by decide, by decide, by decide, by decide, ⟨by decide, by decide⟩, by decide⟩

/-- PrintPortPresentsEachPrint: a PRINT, and a step that is none. -/
theorem witness_print_port :
    (∃ t, step (loaded [0x0F90000000000000]) = .next t ∧ beginStep (loaded [0x0F90000000000000]) = .ok (.print 9)) ∧
      ∃ t, step sample = .next t ∧ ∀ rd, beginStep sample ≠ .ok (.print rd) :=
  ⟨⟨_, rfl, rfl⟩, _, rfl, fun rd h => by
    have hs : beginStep sample = .ok (.add 0 1) := rfl
    rw [hs] at h
    cases h⟩

/-- StepKeepsTheInvariant, HostEventsKeepTheInvariant, ResetMeetsTheInvariant. -/
theorem witness_invariant :
    (loaded [0x0F90000000000000]).Inv ∧ (loaded [0x0F90000000000000]).imageInBounds ∧
      (∃ t, step (loaded [0x0F90000000000000]) = .next t) ∧
      ∃ t, hostEvent (.writeImem 999 1) (loaded [0]).assertReset = .next t :=
  ⟨⟨by decide, by unfold State.imageInBounds; decide, ⟨fun r _ => loaded_reg _ r, fun _ h => nomatch h⟩,
      by decide, by decide, by decide, by decide, by decide⟩,
    by unfold State.imageInBounds; decide, ⟨_, rfl⟩, _, rfl⟩

/-- ResetRestartsTheBlock: two states that differ in all but image and parameters. -/
theorem witness_reset :
    sample.halt.imem = sample.imem ∧ sample.halt.progLen = sample.progLen ∧ sample.halt.lt = sample.lt ∧
      sample.halt.params = sample.params ∧ sample.halt ≠ sample := by decide

/-- ImageIsFrozenOutsideReset, HostWritesReachTheImage: the two levels of rst, and the last places there are. -/
theorem witness_rst :
    sample.rst = false ∧ sample.assertReset.rst = true ∧ (999 : BitVec 10).toNat < sample.params.imemDepth.val ∧
      (99 : BitVec 7).toNat < sample.params.labelCap.val ∧ ∃ t, hostEvent .requestStep sample = .next t :=
  ⟨by decide, by decide, by decide, by decide, _, rfl⟩

/-- DebugPortsReadTheEndedState: an ended run, and addresses on both sides of the ends. -/
theorem witness_debug :
    sample.halt.status ≠ .running ∧ (9 : Reg).val < sample.halt.params.nreg.val ∧
      sample.halt.params.nreg.val ≤ (10 : BitVec 4).toNat ∧ (999 : BitVec 10).toNat < sample.halt.params.dmemDepth ∧
      sample.halt.params.dmemDepth ≤ (1000 : BitVec 10).toNat := by decide

/-- AssembledWordsAreNeverIllegal, AssembledProgramsFit, BootLoadsTheProgram. -/
theorem witness_assembled :
    assemble sample.params "LOAD R0, 5\nend:".toList = .ok { words := [0x0100000000000005], labels := [1] } ∧
      sample.imageInBounds :=
  ⟨by rfl, by unfold State.imageInBounds; decide⟩

/-- HostReportsTheRun: a halted, a faulted and a running state. -/
theorem witness_reports :
    sample.halt.status = .halted ∧ (9 : Reg).val < sample.halt.params.nreg.val ∧
      (sample.enterFault .divisionByZero 0 0).status = .faulted ∧
      sample.status = .running := by decide

/-- ParametersAreFixed: an event that changes the state. -/
theorem witness_parameters : ∃ t, hostEvent (.setProgLen 0) State.reset.assertReset = .next t ∧
    t.progLen ≠ State.reset.assertReset.progLen :=
  ⟨_, rfl, by decide⟩

/-- RegistersEndAtNreg: rd 10, then rs 10, with ten registers, and rs 4 with four. -/
theorem witness_nreg :
    ((loaded [0x04A0000000000000]).fetching ∧ (loaded [0x04A0000000000000]).wordAtPc = some 0x04A0000000000000 ∧
        10 ≤ (wordRd 0x04A0000000000000).toNat) ∧
      ((loaded [0x040A000000000000]).fetching ∧ (loaded [0x040A000000000000]).wordAtPc = some 0x040A000000000000 ∧
        10 ≤ (wordRs 0x040A000000000000).toNat) ∧
      (withCapacities 4 8 2 1 (loaded [0x0404000000000000])).fetching ∧ 4 ≤ (wordRs 0x0404000000000000).toNat ∧
      0x01 ≤ (wordOpcode 0x0404000000000000).toNat ∧ (wordOpcode 0x0404000000000000).toNat ≤ 0x13 ∧
      ¬ (0x0A ≤ (wordOpcode 0x0404000000000000).toNat ∧ (wordOpcode 0x0404000000000000).toNat ≤ 0x0E) :=
  ⟨⟨⟨by decide, by decide, by decide, by decide⟩, by decide, by decide⟩,
    ⟨⟨by decide, by decide, by decide, by decide⟩, by decide, by decide⟩,
    ⟨by decide, by decide, by decide, by decide⟩, by decide, by decide, by decide, by decide⟩

end Sys2Proof.Tests
end

section
/-! SUPPORT. Laws of the shared operations that the scope statements need: bits32 and tdiv as integers, the whole step
and each host event inverted once, and the frame of the configuration. -/

namespace Sys2Proof.Machine

/-! ### bits32 and tdiv as integers (R11, R12) -/

theorem toNat_bits32 (r : Int) : ((bits32 r).toNat : Int) = r % 4294967296 := by
  rw [bits32, BitVec.toNat_ofInt]
  omega

theorem toInt_bits32 {r : Int} (low : -2147483648 ≤ r) (high : r ≤ 2147483647) : (bits32 r).toInt = r :=
  BitVec.toInt_ofInt_eq_self (by decide) (by omega) (by omega)

theorem sint_bounds (v : Word) : -2147483648 ≤ sint v ∧ sint v ≤ 2147483647 :=
  ⟨v.le_toInt, Int.le_of_lt_add_one v.toInt_lt⟩

theorem natAbs_tdiv (a b : Int) : (tdiv a b).natAbs = a.natAbs / b.natAbs := Int.natAbs_tdiv a b

theorem tdiv_neg_iff (a b : Int) :
    tdiv a b < 0 ↔ ((a < 0 ∧ 0 < b) ∨ (0 < a ∧ b < 0)) ∧ b.natAbs ≤ a.natAbs := by
  rw [tdiv, ← Int.sign_neg_iff, Int.sign_tdiv]
  split
  · omega
  · rw [← Int.sign_mul, Int.sign_neg_iff, Int.mul_neg_iff]
    omega

/-- The one quotient of 32-bit values outside the signed range is that of -2^31 by -1 (R174, R266). -/
theorem tdiv_bounds {a b : Int} (ha : -2147483648 ≤ a ∧ a ≤ 2147483647)
    (hab : ¬ (a = -2147483648 ∧ b = -1)) : -2147483648 ≤ tdiv a b ∧ tdiv a b ≤ 2147483647 := by
  by_cases hb : b = -1
  · have hq : tdiv a b = -a := by simp [tdiv, hb, Int.tdiv_neg]
    omega
  · by_cases h1 : b = 1
    · simpa [tdiv, h1] using ha
    · have hq : (tdiv a b).natAbs ≤ 1073741824 := by
        rw [natAbs_tdiv]
        by_cases h0 : b = 0
        · simp [h0]
        · exact Nat.div_le_of_le_mul (by omega)
      omega

/-! ### Writing a result -/

@[simp] theorem State.reg_setReg_same (s : State) (r : Reg) (v : Word) : (s.setReg r v).reg r = v := by
  simp [State.reg_setReg]

/-- DIV of an ordinary pair (R174). -/
theorem execDiv_eq {rd rs : Reg} {s : State} (h0 : sint (s.reg rs) ≠ 0)
    (hov : ¬ (sint (s.reg rd) = -2147483648 ∧ sint (s.reg rs) = -1)) :
    execDiv rd rs s = .next ((s.setReg rd (bits32 (tdiv (sint (s.reg rd)) (sint (s.reg rs))))).advance) := by
  simp [execDiv, writeBack, h0, hov]

/-! ### The whole step, inverted once -/

/-- If a step answers a next state: no step was due (R131, R300), or it halted (R132), or it took a decode fault (R89),
or it ran an instruction (R134). -/
theorem step_next {s t : State} (h : step s = .next t) :
    ((s.rst = true ∨ s.status ≠ .running) ∧ t = s) ∨
      (s.rst = false ∧ s.status = .running ∧ s.imageProblem = none ∧ s.len ≤ s.pc ∧ t = s.halt) ∨
      (s.fetching ∧ ∃ w e, s.wordAtPc = some w ∧ decode s.params.nreg w = .error e ∧
        t = s.enterFault (decodeFaultCause e) (decodeFaultInfo e) w) ∨
      ∃ i, beginStep s = .ok i ∧ exec i s = .next t := by
  unfold step at h
  split at h
  · rename_i r hb
    subst h
    obtain ⟨hr, ht⟩ | ⟨hs, ht⟩ | ⟨e, -, ht⟩ | ⟨hr, hs, hi, hp, ht⟩ | ⟨hf, w, e, hw, hd, ht⟩ := beginStep_error hb
    · exact .inl ⟨.inl hr, Host.Outcome.next.inj ht⟩
    · exact .inl ⟨.inr hs, Host.Outcome.next.inj ht⟩
    · cases ht
    · exact .inr (.inl ⟨hr, hs, hi, hp, Host.Outcome.next.inj ht⟩)
    · exact .inr (.inr (.inl ⟨hf, w, e, hw, hd, Host.Outcome.next.inj ht⟩))
  · exact .inr (.inr (.inr ⟨_, ‹_›, h⟩))

/-- A fetching state whose word does not decode takes that decode fault (R89, R261, R262). -/
theorem step_eq_of_decode_error {s : State} (hf : s.fetching) {w : InstrWord} (hw : s.wordAtPc = some w)
    {e : DecodeFault} (hd : decode s.params.nreg w = .error e) :
    step s = .next (s.enterFault (decodeFaultCause e) (decodeFaultInfo e) w) := by
  obtain ⟨hr, hs, hi, hp⟩ := hf
  have hb : beginStep s = .error (takeFault (decodeFaultCause e) (decodeFaultInfo e) s) := by
    simp [beginStep, hr, hs, hi, hp, hw, hd]
  simp [step, hb, takeFault_eq hw]

theorem faultTaken_enterFault (s : State) (c : Cause) (info : Word) (w : InstrWord) :
    faultTaken c info w s (s.enterFault c info w) := by
  simp [faultTaken, sameRegisters, sameMemory, sameConfiguration]

/-! ### The configuration is kept (R9) -/

theorem Effect.sameConfiguration {i : Instr} {s t : State} (h : Effect i s t) : sameConfiguration s t := by
  cases h <;> exact ⟨rfl, rfl, rfl, rfl, rfl⟩

theorem exec_sameConfiguration {i : Instr} {s t : State} (h : exec i s = .next t) : sameConfiguration s t :=
  (exec_next h).sameConfiguration

theorem step_sameConfiguration {s t : State} (h : step s = .next t) : sameConfiguration s t := by
  obtain ⟨-, rfl⟩ | ⟨-, -, -, -, rfl⟩ | ⟨-, w, e, -, -, rfl⟩ | ⟨i, -, hi⟩ := step_next h
  · exact ⟨rfl, rfl, rfl, rfl, rfl⟩
  · exact ⟨rfl, rfl, rfl, rfl, rfl⟩
  · exact ⟨rfl, rfl, rfl, rfl, rfl⟩
  · exact exec_sameConfiguration hi

/-! ### Host writes, inverted once (R304) -/

theorem hostWriteImem_next {addr : BitVec 10} {data : InstrWord} {s t : State}
    (h : hostWriteImem addr data s = .next t) :
    (s.rst = false ∧ t = s) ∨
      (s.rst = true ∧ addr.toNat < s.params.imemDepth.val ∧ t = { s with imem := cellSet addr.toNat data s.imem }) := by
  unfold hostWriteImem at h
  split at h
  · split at h
    · exact .inr ⟨‹_›, ‹_›, (Host.Outcome.next.inj h).symm⟩
    · cases h
  · exact .inl ⟨Bool.eq_false_iff.2 ‹_›, (Host.Outcome.next.inj h).symm⟩

theorem hostWriteLabel_next {id : BitVec 7} {data : BitVec 11} {s t : State}
    (h : hostWriteLabel id data s = .next t) :
    (s.rst = false ∧ t = s) ∨
      (s.rst = true ∧ id.toNat < s.params.labelCap.val ∧
        t = { s with lt := cellSet id.toNat (labelEntryOfBits data) s.lt }) := by
  unfold hostWriteLabel at h
  split at h
  · split at h
    · exact .inr ⟨‹_›, ‹_›, (Host.Outcome.next.inj h).symm⟩
    · cases h
  · exact .inl ⟨Bool.eq_false_iff.2 ‹_›, (Host.Outcome.next.inj h).symm⟩

theorem hostSetProgLen_next {n : BitVec 10} {s t : State} (h : hostSetProgLen n s = .next t) :
    (s.rst = false ∧ t = s) ∨ (s.rst = true ∧ t = { s with progLen := some n }) := by
  unfold hostSetProgLen at h
  split at h
  · exact .inr ⟨‹_›, (Host.Outcome.next.inj h).symm⟩
  · exact .inl ⟨Bool.eq_false_iff.2 ‹_›, (Host.Outcome.next.inj h).symm⟩

theorem hostEvent_params {e : HostEvent} {s t : State} (h : hostEvent e s = .next t) : t.params = s.params := by
  cases e with
  | assertRst =>
    cases h
    rfl
  | releaseRst =>
    cases h
    rfl
  | writeImem addr data => obtain ⟨-, rfl⟩ | ⟨-, -, rfl⟩ := hostWriteImem_next h <;> rfl
  | writeLabel id data => obtain ⟨-, rfl⟩ | ⟨-, -, rfl⟩ := hostWriteLabel_next h <;> rfl
  | setProgLen n => obtain ⟨-, rfl⟩ | ⟨-, rfl⟩ := hostSetProgLen_next h <;> rfl
  | requestStep =>
    obtain ⟨-, -, -, hp, -⟩ := step_sameConfiguration h
    exact hp

end Sys2Proof.Machine
end

section
/-! SUPPORT. What the register formats refuse (R85, R89). -/

namespace Sys2Proof

/-- The opcodes of the formats RI, RA, RR and R1, the ones with a register field (R82, R88). -/
def isRegisterOpcode (op : Nat) : Prop := 0x01 ≤ op ∧ op ≤ 0x13 ∧ ¬ (0x0A ≤ op ∧ op ≤ 0x0E)

/-- What all three register checkers refuse with one fault, the decoder refuses with it for a register instruction;
format RA is checked as RI is. -/
theorem decode_error_of_formats {n : RegCount} {w : InstrWord} {e : DecodeFault}
    (hop : isRegisterOpcode (wordOpcode w).toNat)
    (hRI : ∀ mk, decodeRegImm n mk w = .error e) (hRR : ∀ mk, decodeRegReg n mk w = .error e)
    (hR1 : ∀ mk, decodeReg n mk w = .error e) : decode n w = .error e := by
  obtain ⟨low, high, notLabel⟩ := hop
  unfold decode
  split
  case h_1 => exact hRI _
  case h_2 | h_3 => exact hRI _
  case h_4 | h_5 | h_6 | h_7 | h_8 | h_9 | h_16 | h_17 | h_18 => exact hRR _
  case h_10 | h_11 | h_12 | h_13 | h_14 => omega
  case h_15 | h_19 => exact hR1 _
  case h_20 =>
    simp only [imp_false] at *
    omega

/-- rd at or above NREG is refused first (R89). -/
theorem decode_error_rd {n : RegCount} {w : InstrWord} (hop : isRegisterOpcode (wordOpcode w).toNat)
    (hrd : n.val ≤ (wordRd w).toNat) : decode n w = .error (.illegalInstruction .rd) := by
  have hnone := regOfField_eq_none.2 hrd
  exact decode_error_of_formats hop (fun mk => by simp [decodeRegImm, hnone])
    (fun mk => by simp [decodeRegReg, hnone]) (fun mk => by simp [decodeReg, hnone])

/-- rs at or above NREG is refused next: format RR finds no register, the others a field that is not zero, since NREG
is above rd (R87, R89). -/
theorem decode_error_rs {n : RegCount} {w : InstrWord} (hop : isRegisterOpcode (wordOpcode w).toNat)
    (hrd : (wordRd w).toNat < n.val) (hrs : n.val ≤ (wordRs w).toNat) :
    decode n w = .error (.illegalInstruction .rs) := by
  obtain ⟨rd, hsome⟩ : ∃ rd, regOfField n (wordRd w) = some rd := by simp [regOfField, hrd]
  have hnone := regOfField_eq_none.2 hrs
  have hne : wordRs w ≠ 0#4 := by
    intro h
    simp only [h, BitVec.toNat_zero] at hrs
    omega
  exact decode_error_of_formats hop (fun mk => by simp [decodeRegImm, hsome, hne])
    (fun mk => by simp [decodeRegReg, hsome, hnone]) (fun mk => by simp [decodeReg, hsome, hne])

end Sys2Proof
end

section
/-! The scope statements (00_scope.md). -/

namespace Sys2Proof.Machine

/-- Settles O20: under wrap each of the three writes bits32 of its exact result, and bits32 is exact modulo 2^32. -/
theorem arithmeticWrapsModuloTwoTo32 : Obligations.ArithmeticWrapsModuloTwoTo32 := by
  intro rd rs s i r hwrap hmem
  have hexec : exec i s = writeExact rd r s := by
    simp only [List.mem_cons, List.not_mem_nil, or_false, Prod.mk.injEq] at hmem
    obtain ⟨rfl, rfl⟩ | ⟨rfl, rfl⟩ | ⟨rfl, rfl⟩ := hmem <;> rfl
  refine ⟨_, hexec.trans (writeExact_eq (.inr hwrap)), ?_, ?_⟩
  · simpa using toNat_bits32 r
  · intro low high
    simpa using toInt_bits32 low high

/-- Settles O21: the quotient fits 32 bits, so its magnitude and sign are those of the integer quotient. -/
theorem divRoundsTowardZero : Obligations.DivRoundsTowardZero := by
  rintro rd rs s a b rfl rfl hb hov
  obtain ⟨low, high⟩ := tdiv_bounds (b := sint (s.reg rs)) (sint_bounds (s.reg rd)) hov
  have hq : ((s.setReg rd (bits32 (tdiv (sint (s.reg rd)) (sint (s.reg rs))))).advance.reg rd).toInt =
      tdiv (sint (s.reg rd)) (sint (s.reg rs)) := by
    simpa using toInt_bits32 low high
  refine ⟨_, execDiv_eq hb hov, ?_⟩
  rw [hq]
  exact ⟨natAbs_tdiv _ _, tdiv_neg_iff _ _⟩

/-- Settles O28: none of an instruction's effects touches the configuration. -/
theorem instructionsKeepTheConfiguration : Obligations.InstructionsKeepTheConfiguration :=
  fun _ _ _ h => exec_sameConfiguration h

/-- Settles O56: the defaults compute, and no event writes the parameters. -/
theorem parametersAreFixed : Obligations.ParametersAreFixed :=
  ⟨by decide, fun _ _ _ h => hostEvent_params h⟩

/-- Settles O57: the decoder refuses the word for its register field, and the step takes that fault. -/
theorem registersEndAtNreg : Obligations.RegistersEndAtNreg := by
  intro s w hf hw low high notLabel
  have hop : isRegisterOpcode (wordOpcode w).toNat := ⟨low, high, notLabel⟩
  refine ⟨fun hrd => ?_, fun hrd hrs => ?_⟩
  · exact ⟨_, step_eq_of_decode_error hf hw (decode_error_rd hop hrd), faultTaken_enterFault _ _ _ _⟩
  · exact ⟨_, step_eq_of_decode_error hf hw (decode_error_rs hop hrd hrs), faultTaken_enterFault _ _ _ _⟩

end Sys2Proof.Machine
end

section
/-! SUPPORT. The invariant's parts, each with the operations that keep it: what a decoded instruction names exists, the
registers that are no registers, the image under a host write, and the invariant of a running and of a reset state. -/

namespace Sys2Proof

/-! ### A decoded instruction is well formed (R84 to R86, R89) -/

theorem addressEncodable_toInt (imm : Word) : addressEncodable imm.toInt = true := by
  have low := imm.le_toInt
  have high := imm.toInt_lt
  simp only [addressEncodable, decide_eq_true_eq]
  omega

theorem labelEncodable_toNat (imm : Word) : labelEncodable imm.toNat = true := by
  have high := imm.isLt
  simp only [labelEncodable, decide_eq_true_eq]
  omega

theorem wellFormed_of_decodeRegImm {n : RegCount} {mk : Reg → Word → Instr} {w : InstrWord} {i : Instr}
    (hmk : ∀ rd imm, registerExists n rd = true → (mk rd imm).wellFormed n = true)
    (h : decodeRegImm n mk w = .ok i) : i.wellFormed n = true := by
  obtain ⟨rd, hrd, -, -, -, rfl⟩ := decodeRegImm_ok h
  exact hmk rd _ hrd

theorem wellFormed_of_decodeRegAddr {n : RegCount} {mk : Reg → Int → Instr} {w : InstrWord} {i : Instr}
    (hmk : ∀ rd a, (mk rd a).wellFormed n = (registerExists n rd && addressEncodable a))
    (h : decodeRegAddr n mk w = .ok i) : i.wellFormed n = true :=
  wellFormed_of_decodeRegImm (fun rd imm hrd => by simp [hmk, hrd, addressEncodable_toInt]) h

theorem wellFormed_of_decodeRegReg {n : RegCount} {mk : Reg → Reg → Instr} {w : InstrWord} {i : Instr}
    (hmk : ∀ rd rs, (mk rd rs).wellFormed n = (registerExists n rd && registerExists n rs))
    (h : decodeRegReg n mk w = .ok i) : i.wellFormed n = true := by
  obtain ⟨rd, rs, hrd, -, hrs, -, -, -, rfl⟩ := decodeRegReg_ok h
  simp [hmk, hrd, hrs]

theorem wellFormed_of_decodeReg {n : RegCount} {mk : Reg → Instr} {w : InstrWord} {i : Instr}
    (hmk : ∀ rd, (mk rd).wellFormed n = registerExists n rd) (h : decodeReg n mk w = .ok i) :
    i.wellFormed n = true := by
  obtain ⟨rd, hrd, -, -, -, -, rfl⟩ := decodeReg_ok h
  rw [hmk, hrd]

theorem wellFormed_of_decodeLabel {n : RegCount} {mk : Nat → Instr} {w : InstrWord} {i : Instr}
    (hmk : ∀ id, (mk id).wellFormed n = labelEncodable id) (h : decodeLabel mk w = .ok i) :
    i.wellFormed n = true := by
  obtain ⟨-, -, -, rfl⟩ := decodeLabel_ok h
  rw [hmk, labelEncodable_toNat]

/-- Whatever the decoder accepts has its operands in range (R84, R85, R86). -/
theorem decode_wellFormed {n : RegCount} {w : InstrWord} {i : Instr} (h : decode n w = .ok i) :
    i.wellFormed n = true := by
  unfold decode at h
  split at h
  case h_1 => exact wellFormed_of_decodeRegImm (mk := .load) (fun _ _ hrd => hrd) h
  case h_2 | h_3 => exact wellFormed_of_decodeRegAddr (fun _ _ => rfl) h
  case h_4 | h_5 | h_6 | h_7 | h_8 | h_9 | h_16 | h_17 | h_18 =>
    exact wellFormed_of_decodeRegReg (fun _ _ => rfl) h
  case h_10 | h_11 | h_12 | h_13 | h_14 => exact wellFormed_of_decodeLabel (fun _ => rfl) h
  case h_15 | h_19 => exact wellFormed_of_decodeReg (fun _ => rfl) h
  case h_20 => cases h

end Sys2Proof

namespace Sys2Proof.Machine

theorem registerExists_of_destination {n : RegCount} {i : Instr} {rd : Reg} (hw : i.wellFormed n = true)
    (hd : destination i = some rd) : registerExists n rd = true := by
  cases i with
  | load _ _ | not _ =>
    cases hd
    exact hw
  | loadm _ _ | add _ _ | sub _ _ | mul _ _ | div _ _ | mov _ _ | and _ _ | or _ _ | xor _ _ =>
    cases hd
    exact (Bool.and_eq_true_iff.1 hw).1
  | store _ _ | cmp _ _ | jmp _ | jne _ | jeq _ | jgt _ | jlt _ | print _ => cases hd

theorem decodeFaultCause_ne_none (e : DecodeFault) : decodeFaultCause e ≠ .none := by
  cases e <;> simp [decodeFaultCause]

/-! ### The places past NREG (R21) and the image's bounds (R38, R40) -/

theorem State.registersInRange.setReg {s : State} (h : s.registersInRange) {rd : Reg}
    (hrd : registerExists s.params.nreg rd = true) (v : Word) : (s.setReg rd v).registersInRange := by
  obtain ⟨hx, hout⟩ := h
  refine ⟨fun r hr => ?_, hout⟩
  have hne : r ≠ rd := fun heq => by simp [heq, hrd] at hr
  rw [State.reg_setReg, if_neg hne]
  exact hx r hr

theorem State.registersInRange.emit {s : State} (h : s.registersInRange) {d : Reg}
    (hd : registerExists s.params.nreg d = true) (v : Word) : (s.emit d v).registersInRange := by
  obtain ⟨hx, hout⟩ := h
  refine ⟨hx, fun e he => ?_⟩
  obtain he | he := List.mem_append.1 he
  · exact hout e he
  · cases List.mem_singleton.1 he
    exact hd

theorem index_lt_of_mem_cellSet {α : Type} {depth k : Nat} (hk : k < depth) {v : α} {cells : List (Nat × α)}
    (h : ∀ c ∈ cells, c.1 < depth) : ∀ c ∈ cellSet k v cells, c.1 < depth := by
  intro c hc
  obtain rfl | hc := mem_cellSet hc
  · exact hk
  · exact h c hc

theorem State.imageInBounds.writeImem {s : State} (h : s.imageInBounds) {k : Nat}
    (hk : k < s.params.imemDepth.val) (w : InstrWord) :
    State.imageInBounds { s with imem := cellSet k w s.imem } := by
  obtain ⟨hirise, hibound, hlt⟩ := h
  exact ⟨risingFrom_cellSet (Nat.zero_le k) w hirise, index_lt_of_mem_cellSet hk hibound, hlt⟩

theorem State.imageInBounds.writeLabel {s : State} (h : s.imageInBounds) {k : Nat}
    (hk : k < s.params.labelCap.val) (e : LabelEntry) :
    State.imageInBounds { s with lt := cellSet k e s.lt } := by
  obtain ⟨hirise, hibound, hlrise, hlbound⟩ := h
  exact ⟨hirise, hibound, risingFrom_cellSet (Nat.zero_le k) e hlrise, index_lt_of_mem_cellSet hk hlbound⟩

/-! ### The invariant -/

/-- A running state with `rst` low meets the invariant by its memory, image, registers, pc and CAUSE alone. -/
theorem State.inv_of_running {s : State} (hmem : Memory.wf s.params.dmemDepth s.dmem = true)
    (himage : s.imageInBounds) (hregs : s.registersInRange) (hpc : s.pc ≤ s.len) (hcause : s.cause = .none)
    (hstatus : s.status = .running) (hrst : s.rst = false) : s.Inv :=
  ⟨hmem, himage, hregs, hpc, by simp [hcause, hstatus], by simp [hstatus], by simp [hstatus], by simp [hrst]⟩

theorem State.inv_assertReset {s : State} (himage : s.imageInBounds) : s.assertReset.Inv :=
  ⟨Memory.wf_empty _, himage, ⟨fun r _ => by simp [State.reg], by simp⟩, Nat.zero_le _, by simp, by simp, by simp,
    fun _ => rfl⟩

/-- A state that is its own reset meets the invariant with any image in bounds written to it: the state written is its
own reset too (R300). -/
theorem State.inv_of_image_write {s : State} (hreset : s.assertReset = s) {imem : List (Nat × InstrWord)}
    {progLen : Option (BitVec 10)} {lt : List (Nat × LabelEntry)}
    (himage : State.imageInBounds { s with imem := imem, progLen := progLen, lt := lt }) :
    State.Inv { s with imem := imem, progLen := progLen, lt := lt } := by
  have hself : State.assertReset { s with imem := imem, progLen := progLen, lt := lt } =
      { s with imem := imem, progLen := progLen, lt := lt } := by
    rw [← hreset]
    rfl
  exact hself ▸ State.inv_assertReset himage

theorem State.Inv.halt {s : State} (h : s.Inv) (hrst : s.rst = false) (hstatus : s.status = .running)
    (hend : s.len ≤ s.pc) : s.halt.Inv := by
  obtain ⟨hmem, himage, hregs, hpc, hcause, -, -, -⟩ := h
  have hnone : s.cause = .none := hcause.2 (by simp [hstatus])
  exact ⟨hmem, himage, hregs, hpc, by simp [hnone], fun _ => Nat.le_antisymm hpc hend, by simp, by simp [hrst]⟩

theorem State.Inv.enterFault {s : State} (h : s.Inv) (hf : s.fetching) {w : InstrWord}
    (hw : s.wordAtPc = some w) {c : Cause} (hc : c ≠ .none) (info : Word) : (s.enterFault c info w).Inv := by
  obtain ⟨hmem, himage, hregs, hpc, -, -, -, -⟩ := h
  obtain ⟨hrst, -, -, hlt⟩ := hf
  exact ⟨hmem, himage, hregs, hpc, by simp [hc], by simp, fun _ => ⟨rfl, hw, hlt⟩, by simp [hrst]⟩

/-- Each of an instruction's seven effects keeps the invariant, in a step that fetched the instruction. -/
theorem Effect.inv {i : Instr} {s t : State} (he : Effect i s t) (h : s.Inv) (hf : s.fetching)
    (hi : i.wellFormed s.params.nreg = true) : t.Inv := by
  have ⟨hmem, himage, hregs, _, hcause, _⟩ := h
  have ⟨hrst, hstatus, haccepted, hlt⟩ := hf
  have hnone : s.cause = .none := hcause.2 (by simp [hstatus])
  cases he with
  | register rd v hd =>
    have hregs' := hregs.setReg (registerExists_of_destination hi hd) v
    exact State.inv_of_running hmem himage hregs' hlt hnone hstatus hrst
  | memory rd k _ hk =>
    exact State.inv_of_running (Memory.wf_dmemWrite hk _ hmem) himage hregs hlt hnone hstatus hrst
  | flag => exact State.inv_of_running hmem himage hregs hlt hnone hstatus hrst
  | output rd hp =>
    subst hp
    exact State.inv_of_running hmem himage (hregs.emit hi _) hlt hnone hstatus hrst
  | jump id target _ ht =>
    exact State.inv_of_running hmem himage hregs (labelTarget_le_len haccepted ht) hnone hstatus hrst
  | untaken => exact State.inv_of_running hmem himage hregs hlt hnone hstatus hrst
  | fault c info w hc hw => exact h.enterFault hf hw hc info

theorem State.Inv.step {s t : State} (h : s.Inv) (hstep : Machine.step s = .next t) : t.Inv := by
  obtain ⟨-, rfl⟩ | ⟨hrst, hstatus, -, hend, rfl⟩ | ⟨hf, w, e, hw, -, rfl⟩ | ⟨i, hb, hx⟩ := step_next hstep
  · exact h
  · exact h.halt hrst hstatus hend
  · exact h.enterFault hf hw (decodeFaultCause_ne_none e) _
  · obtain ⟨hf, w, -, hd⟩ := beginStep_ok hb
    exact (exec_next hx).inv h hf (decode_wellFormed hd)

theorem State.Inv.releaseReset {s : State} (h : s.Inv) : s.releaseReset.Inv := by
  obtain ⟨hmem, himage, hregs, hpc, hcause, hhalted, hfaulted, -⟩ := h
  exact ⟨hmem, himage, hregs, hpc, hcause, hhalted, hfaulted, by simp⟩

/-- Under `rst` a host write leaves the state its own reset, so only the image's bounds are to be kept (R300). -/
theorem State.Inv.hostEvent {e : HostEvent} {s t : State} (h : s.Inv) (he : Machine.hostEvent e s = .next t) :
    t.Inv := by
  have ⟨_, himage, _, _, _, _, _, hreset⟩ := h
  cases e with
  | assertRst =>
    cases he
    exact State.inv_assertReset himage
  | releaseRst =>
    cases he
    exact h.releaseReset
  | writeImem addr data =>
    obtain ⟨-, rfl⟩ | ⟨hrst, hlt, rfl⟩ := hostWriteImem_next he
    · exact h
    · exact State.inv_of_image_write (hreset hrst) (himage.writeImem hlt data)
  | writeLabel id data =>
    obtain ⟨-, rfl⟩ | ⟨hrst, hlt, rfl⟩ := hostWriteLabel_next he
    · exact h
    · exact State.inv_of_image_write (hreset hrst) (himage.writeLabel hlt _)
  | setProgLen n =>
    obtain ⟨-, rfl⟩ | ⟨hrst, rfl⟩ := hostSetProgLen_next he
    · exact h
    · exact State.inv_of_image_write (hreset hrst) himage
  | requestStep => exact h.step he

end Sys2Proof.Machine
end

section
/-! SUPPORT. Frames and noninterference of one instruction: the flag, the output trace, the image and its refusals, the
host's writes and the debug ports. -/

namespace Sys2Proof.Machine

/-! ### What one instruction changes -/

theorem exec_reg_of_not_destination {i : Instr} {s t : State} {q : Reg} (h : exec i s = .next t)
    (hq : destination i ≠ some q) : t.reg q = s.reg q := by
  cases exec_next h with
  | register rd v hd =>
    have hne : q ≠ rd := fun heq => hq (heq ▸ hd)
    simp [State.reg_setReg, hne]
  | memory | flag | output | jump | untaken | fault => rfl

theorem exec_flag {i : Instr} {s t : State} (h : exec i s = .next t) :
    t.flag = s.flag ∨ ∃ ra rb, i = .cmp ra rb := by
  cases exec_next h with
  | flag ra rb hi => exact .inr ⟨ra, rb, hi⟩
  | register | memory | output | jump | untaken | fault => exact .inl rfl

theorem exec_out {i : Instr} {s t : State} (h : exec i s = .next t) :
    t.out = s.out ∨ ∃ rd, i = .print rd ∧ t.out = s.out ++ [(rd, s.reg rd)] := by
  cases exec_next h with
  | output rd hi => exact .inr ⟨rd, hi, rfl⟩
  | register | memory | flag | jump | untaken | fault => exact .inl rfl

/-- Without a PRINT to run, a step leaves OUT alone (R46). -/
theorem step_out_of_no_print {s t : State} (h : step s = .next t) (hp : ∀ rd, beginStep s ≠ .ok (.print rd)) :
    t.out = s.out := by
  obtain ⟨-, rfl⟩ | ⟨-, -, -, -, rfl⟩ | ⟨-, w, e, -, -, rfl⟩ | ⟨i, hb, hx⟩ := step_next h
  · rfl
  · rfl
  · rfl
  · obtain hout | ⟨rd, rfl, -⟩ := exec_out hx
    · exact hout
    · exact absurd hb (hp rd)

theorem step_eq_exec {s : State} {i : Instr} (h : beginStep s = .ok i) : step s = exec i s := by
  simp [step, h]

/-! ### The flag is not read (R29) -/

/-- The outcome with `g` applied to its next state. -/
def mapNext (g : State → State) : Result → Result
  | .next t => .next (g t)
  | .fault r => .fault r
  | .refused r => .refused r

section

variable (f : Flag) (s : State)

theorem takeFault_setFlag (c : Cause) (info : Word) :
    takeFault c info (s.setFlag f) = mapNext (State.setFlag f) (takeFault c info s) := by
  simp only [takeFault, State.wordAtPc_setFlag]
  cases s.wordAtPc <;> rfl

theorem takeJump_setFlag (id : Nat) :
    takeJump id (s.setFlag f) = mapNext (State.setFlag f) (takeJump id s) := by
  simp only [takeJump, State.labelTarget_setFlag]
  cases s.labelTarget id with
  | some target => rfl
  | none => exact takeFault_setFlag f s _ _

theorem writeExact_setFlag (rd : Reg) (r : Int) :
    writeExact rd r (s.setFlag f) = mapNext (State.setFlag f) (writeExact rd r s) := by
  simp only [writeExact, State.setFlag_params]
  split
  · rfl
  · cases s.params.ovfMode with
    | wrap => rfl
    | fault => exact takeFault_setFlag f s _ _

theorem execDiv_setFlag (rd rs : Reg) :
    execDiv rd rs (s.setFlag f) = mapNext (State.setFlag f) (execDiv rd rs s) := by
  by_cases hzero : sint (s.reg rs) = 0
  · simp only [execDiv, State.reg_setFlag, hzero, if_true, takeFault_setFlag]
  by_cases hov : sint (s.reg rd) = -2147483648 ∧ sint (s.reg rs) = -1
  · cases hmode : s.params.divOvfMode with
    | wrap =>
      simp [execDiv, hov, hmode]
      rfl
    | fault => simp [execDiv, hov, hmode, takeFault_setFlag]
  · rw [execDiv_eq hzero hov, execDiv_eq (s := s.setFlag f) hzero hov]
    rfl

theorem execStore_setFlag (rd : Reg) (addr : Int) :
    execStore rd addr (s.setFlag f) = mapNext (State.setFlag f) (execStore rd addr s) := by
  simp only [execStore, State.setFlag_params]
  cases dataIndex s.params.dmemDepth addr with
  | some k => rfl
  | none => exact takeFault_setFlag f s _ _

theorem execLoadm_setFlag (rd : Reg) (addr : Int) :
    execLoadm rd addr (s.setFlag f) = mapNext (State.setFlag f) (execLoadm rd addr s) := by
  simp only [execLoadm, State.setFlag_params]
  cases dataIndex s.params.dmemDepth addr with
  | some k => rfl
  | none => exact takeFault_setFlag f s _ _

variable {f s}

/-- An instruction that neither reads nor writes the flag commutes with setting it. -/
theorem exec_setFlag {i : Instr} (hr : readsFlag i = false) (hw : ∀ ra rb, i ≠ .cmp ra rb) :
    exec i (s.setFlag f) = mapNext (State.setFlag f) (exec i s) := by
  cases i with
  | store rd addr => exact execStore_setFlag f s rd addr
  | loadm rd addr => exact execLoadm_setFlag f s rd addr
  | add rd rs | sub rd rs | mul rd rs => exact writeExact_setFlag f s rd _
  | div rd rs => exact execDiv_setFlag f s rd rs
  | jmp id => exact takeJump_setFlag f s id
  | load | mov | print | and | or | xor | not => rfl
  | cmp ra rb => exact absurd rfl (hw ra rb)
  | jne | jeq | jgt | jlt => cases hr

/-- CMP overwrites the flag it is given. -/
theorem exec_cmp_setFlag (ra rb : Reg) : exec (.cmp ra rb) (s.setFlag f) = exec (.cmp ra rb) s := rfl

end

/-! ### A refused image -/

theorem step_eq_refused {s : State} {r : Refusal} (hrst : s.rst = false) (hstatus : s.status = .running)
    (h : s.imageProblem = some r) : step s = .refused r := by
  simp [step, beginStep, hrst, hstatus, h]

theorem step_refused_of_imageProblem_ne_none {s : State} (hrst : s.rst = false) (hstatus : s.status = .running)
    (h : s.imageProblem ≠ none) : ∃ r, step s = .refused r := by
  obtain ⟨r, hr⟩ := Option.ne_none_iff_exists'.1 h
  exact ⟨r, step_eq_refused hrst hstatus hr⟩

theorem imageProblem_of_progLen_none {s : State} (h : s.progLen = none) :
    s.imageProblem = some .imageNotWritten := by
  simp [State.imageProblem, h]

theorem imageProblem_of_len_above_capacity {s : State} (h : s.params.imemDepth.val < s.len) :
    s.imageProblem = some .progLenAboveCapacity := by
  have hwritten : s.progLen ≠ none := by
    intro hnone
    simp [State.len, hnone] at h
  simp [State.imageProblem, hwritten, h]

theorem not_listsAllBelow_of_cellAt_none {α : Type} {n k : Nat} {cells : List (Nat × α)} (hk : k < n)
    (h : cellAt k cells = none) : listsAllBelow n cells ≠ true := by
  intro hall
  simpa [h] using cellAt_isSome_of_listsAllBelow hk hall

/-! ### Host writes -/

/-- With `rst` low no event changes the image (R304). -/
theorem hostEvent_image {e : HostEvent} {s t : State} (hrst : s.rst = false) (h : hostEvent e s = .next t) :
    t.imem = s.imem ∧ t.progLen = s.progLen ∧ t.lt = s.lt := by
  cases e with
  | assertRst | releaseRst =>
    cases h
    exact ⟨rfl, rfl, rfl⟩
  | writeImem addr data =>
    obtain ⟨-, rfl⟩ | ⟨hhigh, -, -⟩ := hostWriteImem_next h
    · exact ⟨rfl, rfl, rfl⟩
    · simp [hrst] at hhigh
  | writeLabel id data =>
    obtain ⟨-, rfl⟩ | ⟨hhigh, -, -⟩ := hostWriteLabel_next h
    · exact ⟨rfl, rfl, rfl⟩
    · simp [hrst] at hhigh
  | setProgLen n =>
    obtain ⟨-, rfl⟩ | ⟨hhigh, -⟩ := hostSetProgLen_next h
    · exact ⟨rfl, rfl, rfl⟩
    · simp [hrst] at hhigh
  | requestStep =>
    obtain ⟨himem, hlen, hlt, -, -⟩ := step_sameConfiguration h
    exact ⟨himem, hlen, hlt⟩

/-- Everything outside the image stays when the image alone is written. -/
theorem sameOutsideImage_of_image_write (s : State) (imem : List (Nat × InstrWord)) (progLen : Option (BitVec 10))
    (lt : List (Nat × LabelEntry)) :
    sameOutsideImage s { s with imem := imem, progLen := progLen, lt := lt } :=
  ⟨fun _ => rfl, rfl, rfl, fun _ => rfl, ⟨rfl, rfl, rfl, rfl, rfl⟩, rfl, rfl, rfl⟩

/-- `lt_wdata` is the pair of v, the top bit, and the address (R45). -/
theorem labelEntryOfBits_append (v : BitVec 1) (addr : BitVec 10) :
    labelEntryOfBits (v ++ addr) = { v := decide (v = 1), addr := addr } := by
  have hbit (k : Nat) : (v ++ addr).getLsbD k = if k < 10 then addr.getLsbD k else v.getLsbD (k - 10) :=
    BitVec.getLsbD_append
  have hv : (v ++ addr).getLsbD 10 = decide (v = 1) := by
    rw [hbit]
    obtain rfl | rfl := BitVec.eq_zero_or_eq_one v <;> rfl
  have haddr : (v ++ addr).extractLsb' 0 10 = addr := by
    apply BitVec.eq_of_getLsbD_eq
    intro k hk
    simp only [BitVec.getLsbD_extractLsb', Nat.zero_add, hbit, hk, decide_true, Bool.true_and, if_true]
  rw [labelEntryOfBits, hv, haddr]

/-! ### Debug ports (R48) -/

theorem debugReg_of_ended {s : State} (h : s.status ≠ .running) (free : Word) (a : BitVec 4) :
    s.debugReg free a = ((regOfField s.params.nreg a).map s.reg).getD 0 := by
  rw [State.debugReg, if_neg h]
  cases regOfField s.params.nreg a <;> rfl

theorem debugMem_of_ended {s : State} (h : s.status ≠ .running) (free : Word) (a : BitVec 10) :
    s.debugMem free a = if a.toNat < s.params.dmemDepth then s.mem a.toNat else 0 := by
  rw [State.debugMem, if_neg h]

end Sys2Proof.Machine
end

section
/-! The state statements (10_state.md). -/

namespace Sys2Proof.Machine

/-- Settles O43: a step changes nothing, halts, takes a decode fault or has one of an instruction's effects, and each
keeps the invariant. -/
theorem stepKeepsTheInvariant : Obligations.StepKeepsTheInvariant :=
  fun _ _ h hstep => h.step hstep

/-- Settles O44: reset meets the invariant, the writes happen in a state that is its own reset, and the step keeps it. -/
theorem hostEventsKeepTheInvariant : Obligations.HostEventsKeepTheInvariant :=
  fun _ _ _ h he => h.hostEvent he

/-- Settles O24: the one effect on the registers is the write of the destination. -/
theorem onlyDestinationsAreWritten : Obligations.OnlyDestinationsAreWritten :=
  fun _ _ _ _ h hq => exec_reg_of_not_destination h hq

/-- Settles O25: CMP overwrites the flag, and every other instruction but the four conditional jumps commutes with
setting it. -/
theorem flagHasOneWriterAndFourReaders : Obligations.FlagHasOneWriterAndFourReaders := by
  refine ⟨fun i s t h hne => (exec_flag h).resolve_left hne, fun i f s t hr h => ?_⟩
  by_cases hcmp : ∃ ra rb, i = .cmp ra rb
  · obtain ⟨ra, rb, rfl⟩ := hcmp
    exact ⟨t, (exec_cmp_setFlag ra rb).trans h, rfl⟩
  · have hw : ∀ ra rb, i ≠ .cmp ra rb := fun ra rb hi => hcmp ⟨ra, rb, hi⟩
    refine ⟨t.setFlag f, ?_, rfl⟩
    rw [exec_setFlag hr hw, h, mapNext]

/-- Settles O27: the one effect on OUT is that of PRINT. -/
theorem onlyPrintAppendsToOut : Obligations.OnlyPrintAppendsToOut :=
  fun _ _ _ h hne => (exec_out h).resolve_left hne

/-- Settles O41: each flaw makes the image check answer a refusal, since an accepted image has none of them. -/
theorem badImagesAreRefused : Obligations.BadImagesAreRefused := by
  intro s hrst hstatus
  refine ⟨fun h => ?_, fun h => ?_, fun k hk h => ?_, fun id hid h => ?_, fun id addr hv h => ?_⟩
  · exact step_eq_refused hrst hstatus (imageProblem_of_progLen_none h)
  · exact step_eq_refused hrst hstatus (imageProblem_of_len_above_capacity h)
  all_goals
    refine step_refused_of_imageProblem_ne_none hrst hstatus fun hnone => ?_
    obtain ⟨-, -, himem, hlabels, htargets⟩ := imageProblem_eq_none hnone
  · exact not_listsAllBelow_of_cellAt_none hk h himem
  · exact not_listsAllBelow_of_cellAt_none hid h hlabels
  · obtain ⟨-, hentry⟩ := hv
    have hle : addr.toNat ≤ s.len := htargets _ (mem_of_cellAt hentry) rfl
    omega

/-- Settles O42: a PRINT's event is what OUT gains, and no other step makes OUT longer. -/
theorem printPortPresentsEachPrint : Obligations.PrintPortPresentsEachPrint := by
  refine fun s t h => ⟨fun rd hb => ?_, fun hp => ?_⟩
  · cases (step_eq_exec hb).symm.trans h
    simp [printEvents]
  · simp [printEvents, step_out_of_no_print h hp]

/-- Settles O48: each write looks at `rst` first, and neither reset nor a step writes the image. -/
theorem imageIsFrozenOutsideReset : Obligations.ImageIsFrozenOutsideReset := by
  intro s hrst
  refine ⟨fun addr data => ?_, fun id data => ?_, fun len => ?_, fun e t h => hostEvent_image hrst h⟩
  · simp [hostEvent, hostWriteImem, hrst]
  · simp [hostEvent, hostWriteLabel, hrst]
  · simp [hostEvent, hostSetProgLen, hrst]

/-- Settles O49: a write is a `cellSet` of its own memory, whose reads `cellAt_cellSet` gives. -/
theorem hostWritesReachTheImage : Obligations.HostWritesReachTheImage := by
  intro s hrst
  refine ⟨fun addr data ha => ?_, fun id v addr hid => ?_, fun n => ?_⟩
  · refine ⟨_, hostWriteImem_eq hrst ha data, fun k => ?_, rfl, rfl, ?_⟩
    · simp only [cellAt_cellSet, eq_comm]
    · exact sameOutsideImage_of_image_write s _ _ _
  · refine ⟨_, hostWriteLabel_eq hrst hid _, fun k => ?_, rfl, rfl, ?_⟩
    · simp only [cellAt_cellSet, labelEntryOfBits_append, eq_comm]
    · exact sameOutsideImage_of_image_write s _ _ _
  · exact ⟨_, hostSetProgLen_eq hrst n, rfl, rfl, rfl, rfl, sameOutsideImage_of_image_write s _ _ _⟩

/-- Settles O50: past the run each port is a read of the state, bounded by the number of registers or words. -/
theorem debugPortsReadTheEndedState : Obligations.DebugPortsReadTheEndedState := by
  intro free s hended
  refine ⟨fun q hq => ?_, fun a ha => ?_, fun a ha => ?_, fun a ha => ?_⟩
  · have hfield : regOfField s.params.nreg (BitVec.ofNat 4 q.val) = some q :=
      regOfField_fieldOfReg (by simpa [registerExists] using hq)
    rw [debugReg_of_ended hended, hfield, Option.map_some, Option.getD_some]
  · rw [debugReg_of_ended hended, regOfField_eq_none.2 ha, Option.map_none, Option.getD_none]
  · rw [debugMem_of_ended hended, if_pos ha]
  · rw [debugMem_of_ended hended, if_neg (Nat.not_lt.2 ha)]

/-- Settles O51: seventeen closed codes, each computed. -/
theorem codesAreThoseOfTheSpec : Obligations.CodesAreThoseOfTheSpec := by
  unfold Obligations.CodesAreThoseOfTheSpec
  decide

end Sys2Proof.Machine
end

section
/-! SUPPORT. Data memory as one instruction sees it: STORE and LOADM at a valid address, the one writer, and what every
other instruction and the fetch do under another memory. -/

namespace Sys2Proof.Machine

/-! ### STORE and LOADM at a valid address (R63, R151, R152) -/

theorem dataIndex_of_bounds {depth : Nat} {addr : Int} (low : 0 ≤ addr) (high : addr < depth) :
    dataIndex depth addr = some addr.toNat := by
  rw [dataIndex_eq_some]
  omega

theorem exec_store_eq {addr : Int} {s : State} (low : 0 ≤ addr) (high : addr < s.params.dmemDepth) (rd : Reg) :
    exec (.store rd addr) s = .next ((s.setMem addr.toNat (s.reg rd)).advance) := by
  simp [exec, execStore, dataIndex_of_bounds low high]

theorem exec_loadm_eq {addr : Int} {s : State} (low : 0 ≤ addr) (high : addr < s.params.dmemDepth) (rd : Reg) :
    exec (.loadm rd addr) s = .next ((s.setReg rd (s.mem addr.toNat)).advance) := by
  simp [exec, execLoadm, writeBack, dataIndex_of_bounds low high]

/-! ### The one writer (R62) -/

theorem exec_mem {i : Instr} {s t : State} (h : exec i s = .next t) (a : Nat) :
    t.mem a = s.mem a ∨ ∃ rd, i = .store rd (a : Int) := by
  cases exec_next h with
  | memory rd k hi =>
    by_cases hak : a = k
    · exact .inr ⟨rd, hak ▸ hi⟩
    · exact .inl (by simp [State.mem_setMem, hak])
  | register | flag | output | jump | untaken | fault => exact .inl rfl

/-! ### Data memory is not read (R62) -/

/-- The state with data memory `m`. -/
def State.setDmem (m : List (Nat × Word)) (s : State) : State := { s with dmem := m }

section

variable (m : List (Nat × Word)) (s : State)

@[simp] theorem State.setDmem_params : (s.setDmem m).params = s.params := rfl
@[simp] theorem State.reg_setDmem (q : Reg) : (s.setDmem m).reg q = s.reg q := rfl
@[simp] theorem State.labelTarget_setDmem (id : Nat) : (s.setDmem m).labelTarget id = s.labelTarget id := rfl
@[simp] theorem State.wordAtPc_setDmem : (s.setDmem m).wordAtPc = s.wordAtPc := rfl

theorem takeFault_setDmem (c : Cause) (info : Word) :
    takeFault c info (s.setDmem m) = mapNext (State.setDmem m) (takeFault c info s) := by
  simp only [takeFault, State.wordAtPc_setDmem]
  cases s.wordAtPc <;> rfl

theorem takeJump_setDmem (id : Nat) :
    takeJump id (s.setDmem m) = mapNext (State.setDmem m) (takeJump id s) := by
  simp only [takeJump, State.labelTarget_setDmem]
  cases s.labelTarget id with
  | some target => rfl
  | none => exact takeFault_setDmem m s _ _

theorem jumpIf_setDmem (taken : Bool) (id : Nat) :
    jumpIf taken id (s.setDmem m) = mapNext (State.setDmem m) (jumpIf taken id s) := by
  cases taken with
  | true => exact takeJump_setDmem m s id
  | false => rfl

theorem writeExact_setDmem (rd : Reg) (r : Int) :
    writeExact rd r (s.setDmem m) = mapNext (State.setDmem m) (writeExact rd r s) := by
  simp only [writeExact, State.setDmem_params]
  split
  · rfl
  · cases s.params.ovfMode with
    | wrap => rfl
    | fault => exact takeFault_setDmem m s _ _

theorem execDiv_setDmem (rd rs : Reg) :
    execDiv rd rs (s.setDmem m) = mapNext (State.setDmem m) (execDiv rd rs s) := by
  by_cases hzero : sint (s.reg rs) = 0
  · simp only [execDiv, State.reg_setDmem, hzero, if_true, takeFault_setDmem]
  by_cases hov : sint (s.reg rd) = -2147483648 ∧ sint (s.reg rs) = -1
  · simp only [execDiv, State.reg_setDmem, State.setDmem_params, hov, and_self, if_true]
    cases s.params.divOvfMode with
    | wrap => rfl
    | fault => exact takeFault_setDmem m s _ _
  · rw [execDiv_eq hzero hov, execDiv_eq (s := s.setDmem m) hzero hov]
    rfl

variable {m s}

/-- An instruction that neither reads nor writes data memory commutes with setting it. -/
theorem exec_setDmem {i : Instr} (hr : readsMemory i = false) (hw : ∀ rd addr, i ≠ .store rd addr) :
    exec i (s.setDmem m) = mapNext (State.setDmem m) (exec i s) := by
  cases i with
  | add rd rs | sub rd rs | mul rd rs => exact writeExact_setDmem m s rd _
  | div rd rs => exact execDiv_setDmem m s rd rs
  | jmp id => exact takeJump_setDmem m s id
  | jne id | jeq id | jgt id | jlt id => exact jumpIf_setDmem m s _ id
  | load | mov | cmp | print | and | or | xor | not => rfl
  | store rd addr => exact absurd rfl (hw rd addr)
  | loadm => cases hr

/-- STORE writes its word into whatever memory it is given, and faults by its address alone. -/
theorem exec_store_setDmem {rd : Reg} {addr : Int} {t : State} (h : exec (.store rd addr) s = .next t) :
    ∃ u, exec (.store rd addr) (s.setDmem m) = .next u ∧ u.setDmem t.dmem = t := by
  simp only [exec, execStore, State.setDmem_params] at h ⊢
  cases hk : dataIndex s.params.dmemDepth addr with
  | some k =>
    rw [hk] at h
    cases h
    exact ⟨_, rfl, rfl⟩
  | none =>
    simp only [hk] at h ⊢
    refine ⟨t.setDmem m, ?_, rfl⟩
    rw [takeFault_setDmem, h, mapNext]

/-- No instruction but LOADM tells two data memories apart: its next states differ in data memory alone. -/
theorem exec_setDmem_next {i : Instr} {t : State} (hr : readsMemory i = false) (h : exec i s = .next t) :
    ∃ u, exec i (s.setDmem m) = .next u ∧ u.setDmem t.dmem = t := by
  by_cases hstore : ∃ rd addr, i = .store rd addr
  · obtain ⟨rd, addr, rfl⟩ := hstore
    exact exec_store_setDmem h
  · have hw : ∀ rd addr, i ≠ .store rd addr := fun rd addr hi => hstore ⟨rd, addr, hi⟩
    refine ⟨t.setDmem m, ?_, rfl⟩
    rw [exec_setDmem hr hw, h, mapNext]

/-- A state fetches under any data memory, and the same word. -/
theorem beginStep_setDmem {i : Instr} (h : beginStep s = .ok i) : beginStep (s.setDmem m) = .ok i := by
  obtain ⟨hf, w, hw, hd⟩ := beginStep_ok h
  exact beginStep_eq_ok (s := s.setDmem m) hf hw hd

end

end Sys2Proof.Machine
end

section
/-! The memory statements (20_memory.md). -/

namespace Sys2Proof.Machine

/-- Settles O23: both LOADMs read the memory that STORE wrote, one at the written index and one beside it. -/
theorem storeThenLoadmRoundTrips : Obligations.StoreThenLoadmRoundTrips := by
  intro rd re addr other s low high olow ohigh
  have hloadm {a : Int} (la : 0 ≤ a) (ha : a < s.params.dmemDepth) :=
    exec_loadm_eq (s := (s.setMem addr.toNat (s.reg rd)).advance) la ha re
  refine ⟨_, _, _, exec_store_eq low high rd, hloadm low high, hloadm olow ohigh, ?_, fun hne => ?_⟩
  · simp [State.mem_setMem]
  · have hindex : other.toNat ≠ addr.toNat := by omega
    simp [State.mem_setMem, hindex]

/-- Settles O26: STORE is the one effect on data memory, and only LOADM and no fetch depends on what it holds. -/
theorem dataMemoryHasOneWriterAndOneReader : Obligations.DataMemoryHasOneWriterAndOneReader :=
  ⟨fun _ _ _ a h hne => (exec_mem h a).resolve_left hne, fun _ _ _ _ hr h => exec_setDmem_next hr h,
    fun _ _ _ h => beginStep_setDmem h⟩

end Sys2Proof.Machine
end

section
/-! SUPPORT. The encoder and the decoder against each other, format by format (R82, R89, R116). -/

namespace Sys2Proof

/-- A number a port or a field has the width for is that of its bits. -/
theorem toNat_ofNat_of_lt {width k : Nat} (h : k < 2 ^ width) : (BitVec.ofNat width k).toNat = k := by
  rw [BitVec.toNat_ofNat, Nat.mod_eq_of_lt h]

/-! ### A packed word is decoded to the operands it was packed from -/

theorem decodeRegImm_packWord {n : RegCount} {rd : Reg} (hrd : registerExists n rd = true) (mk : Reg → Word → Instr)
    (op : BitVec 8) (imm : Word) : decodeRegImm n mk (packWord op (fieldOfReg rd) 0 imm) = .ok (mk rd imm) := by
  simp [decodeRegImm, wordRd_packWord, wordRs_packWord, wordZ_packWord, wordImm_packWord, regOfField_fieldOfReg hrd]

/-- An address in the range of R84 is the signed value of its own 32 bits. -/
theorem toInt_ofInt_of_addressEncodable {addr : Int} (h : addressEncodable addr = true) :
    (BitVec.ofInt 32 addr).toInt = addr := by
  simp only [addressEncodable, decide_eq_true_eq] at h
  exact BitVec.toInt_ofInt_eq_self (by decide) (by omega) (by omega)

theorem decodeRegAddr_packWord {n : RegCount} {rd : Reg} {addr : Int}
    (h : (registerExists n rd && addressEncodable addr) = true) (mk : Reg → Int → Instr) (op : BitVec 8) :
    decodeRegAddr n mk (packWord op (fieldOfReg rd) 0 (BitVec.ofInt 32 addr)) = .ok (mk rd addr) := by
  obtain ⟨hrd, haddr⟩ := Bool.and_eq_true_iff.1 h
  rw [decodeRegAddr, decodeRegImm_packWord hrd, toInt_ofInt_of_addressEncodable haddr]

theorem decodeRegReg_packWord {n : RegCount} {rd rs : Reg} (h : (registerExists n rd && registerExists n rs) = true)
    (mk : Reg → Reg → Instr) (op : BitVec 8) :
    decodeRegReg n mk (packWord op (fieldOfReg rd) (fieldOfReg rs) 0) = .ok (mk rd rs) := by
  obtain ⟨hrd, hrs⟩ := Bool.and_eq_true_iff.1 h
  simp [decodeRegReg, wordRd_packWord, wordRs_packWord, wordZ_packWord, wordImm_packWord, regOfField_fieldOfReg hrd,
    regOfField_fieldOfReg hrs]

theorem decodeReg_packWord {n : RegCount} {rd : Reg} (hrd : registerExists n rd = true) (mk : Reg → Instr)
    (op : BitVec 8) : decodeReg n mk (packWord op (fieldOfReg rd) 0 0) = .ok (mk rd) := by
  simp [decodeReg, wordRd_packWord, wordRs_packWord, wordZ_packWord, wordImm_packWord, regOfField_fieldOfReg hrd]

theorem decodeLabel_packWord {id : Nat} (h : labelEncodable id = true) (mk : Nat → Instr) (op : BitVec 8) :
    decodeLabel mk (packWord op 0 0 (BitVec.ofNat 32 id)) = .ok (mk id) := by
  have hid : (BitVec.ofNat 32 id).toNat = id := by
    simp only [labelEncodable, decide_eq_true_eq] at h
    exact toNat_ofNat_of_lt (by omega)
  simp only [decodeLabel, wordRd_packWord, wordRs_packWord, wordZ_packWord, wordImm_packWord, hid, ne_eq,
    not_true_eq_false, if_false]

/-- The word of a well-formed instruction decodes to that instruction: its opcode selects its own format. -/
theorem decode_encode {n : RegCount} {i : Instr} (h : i.wellFormed n = true) : decode n (encode i) = .ok i := by
  cases i with
  | load rd imm =>
    rw [encode, decode, wordOpcode_packWord]
    exact decodeRegImm_packWord h _ _ _
  | store rd addr | loadm rd addr =>
    rw [encode, decode, wordOpcode_packWord]
    exact decodeRegAddr_packWord h _ _
  | add rd rs | sub rd rs | mul rd rs | div rd rs | mov rd rs | cmp rd rs | and rd rs | or rd rs | xor rd rs =>
    rw [encode, decode, wordOpcode_packWord]
    exact decodeRegReg_packWord h _ _
  | jmp id | jne id | jeq id | jgt id | jlt id =>
    rw [encode, decode, wordOpcode_packWord]
    exact decodeLabel_packWord h _ _
  | print rd | not rd =>
    rw [encode, decode, wordOpcode_packWord]
    exact decodeReg_packWord h _ _

/-! ### A decoded word is packed again from its instruction's operands -/

/-- A word with z zero is the packed word of whatever its other fields are (R81). -/
theorem packWord_eq_of_fields {w : InstrWord} {op : BitVec 8} {rd rs : BitVec 4} {imm : BitVec 32}
    (hop : wordOpcode w = op) (hrd : wordRd w = rd) (hrs : wordRs w = rs) (hz : wordZ w = 0) (himm : wordImm w = imm) :
    packWord op rd rs imm = w := by
  subst hop hrd hrs himm
  exact packWord_fields w hz

theorem wordOpcode_eq_of_toNat {w : InstrWord} {k : Nat} (h : (wordOpcode w).toNat = k) :
    wordOpcode w = BitVec.ofNat 8 k := by
  rw [← h, BitVec.ofNat_toNat, BitVec.setWidth_eq]

theorem encode_of_decodeRegImm {n : RegCount} {mk : Reg → Word → Instr} {w : InstrWord} {i : Instr} {op : BitVec 8}
    (hop : wordOpcode w = op) (hmk : ∀ rd imm, encode (mk rd imm) = packWord op (fieldOfReg rd) 0 imm)
    (h : decodeRegImm n mk w = .ok i) : encode i = w := by
  obtain ⟨rd, -, hrd, hrs, hz, rfl⟩ := decodeRegImm_ok h
  rw [hmk]
  exact packWord_eq_of_fields hop hrd.symm hrs hz rfl

theorem encode_of_decodeRegAddr {n : RegCount} {mk : Reg → Int → Instr} {w : InstrWord} {i : Instr} {op : BitVec 8}
    (hop : wordOpcode w = op)
    (hmk : ∀ rd addr, encode (mk rd addr) = packWord op (fieldOfReg rd) 0 (BitVec.ofInt 32 addr))
    (h : decodeRegAddr n mk w = .ok i) : encode i = w :=
  encode_of_decodeRegImm hop (fun rd imm => by rw [hmk, BitVec.ofInt_toInt]) h

theorem encode_of_decodeRegReg {n : RegCount} {mk : Reg → Reg → Instr} {w : InstrWord} {i : Instr} {op : BitVec 8}
    (hop : wordOpcode w = op) (hmk : ∀ rd rs, encode (mk rd rs) = packWord op (fieldOfReg rd) (fieldOfReg rs) 0)
    (h : decodeRegReg n mk w = .ok i) : encode i = w := by
  obtain ⟨rd, rs, -, hrd, -, hrs, hz, himm, rfl⟩ := decodeRegReg_ok h
  rw [hmk]
  exact packWord_eq_of_fields hop hrd.symm hrs.symm hz himm

theorem encode_of_decodeReg {n : RegCount} {mk : Reg → Instr} {w : InstrWord} {i : Instr} {op : BitVec 8}
    (hop : wordOpcode w = op) (hmk : ∀ rd, encode (mk rd) = packWord op (fieldOfReg rd) 0 0)
    (h : decodeReg n mk w = .ok i) : encode i = w := by
  obtain ⟨rd, -, hrd, hrs, hz, himm, rfl⟩ := decodeReg_ok h
  rw [hmk]
  exact packWord_eq_of_fields hop hrd.symm hrs hz himm

theorem encode_of_decodeLabel {mk : Nat → Instr} {w : InstrWord} {i : Instr} {op : BitVec 8}
    (hop : wordOpcode w = op) (hmk : ∀ id, encode (mk id) = packWord op 0 0 (BitVec.ofNat 32 id))
    (h : decodeLabel mk w = .ok i) : encode i = w := by
  obtain ⟨hrd, hrs, hz, rfl⟩ := decodeLabel_ok h
  rw [hmk]
  exact packWord_eq_of_fields hop hrd hrs hz (by rw [BitVec.ofNat_toNat, BitVec.setWidth_eq])

/-- A word the decoder accepts is its instruction's own word: each format leaves no field of it unread (R87). -/
theorem encode_decode {n : RegCount} {w : InstrWord} {i : Instr} (h : decode n w = .ok i) : encode i = w := by
  unfold decode at h
  split at h
  case h_1 hop => exact encode_of_decodeRegImm (mk := .load) (wordOpcode_eq_of_toNat hop) (fun _ _ => rfl) h
  case h_2 hop | h_3 hop => exact encode_of_decodeRegAddr (wordOpcode_eq_of_toNat hop) (fun _ _ => rfl) h
  case h_4 hop | h_5 hop | h_6 hop | h_7 hop | h_8 hop | h_9 hop | h_16 hop | h_17 hop | h_18 hop =>
    exact encode_of_decodeRegReg (wordOpcode_eq_of_toNat hop) (fun _ _ => rfl) h
  case h_10 hop | h_11 hop | h_12 hop | h_13 hop | h_14 hop =>
    exact encode_of_decodeLabel (wordOpcode_eq_of_toNat hop) (fun _ => rfl) h
  case h_15 hop | h_19 hop => exact encode_of_decodeReg (wordOpcode_eq_of_toNat hop) (fun _ => rfl) h
  case h_20 => cases h

end Sys2Proof
end

section
/-! SUPPORT. The decoder's refusals are the checks of R89: format by format, and the opcodes that have no format. -/

namespace Sys2Proof.Machine

/-- A register field is at or above NREG, or it names a register (R85). -/
theorem regOfField_cases (n : RegCount) (v : BitVec 4) :
    (n.val ≤ v.toNat ∧ regOfField n v = none) ∨ (¬ n.val ≤ v.toNat ∧ ∃ r, regOfField n v = some r) := by
  by_cases h : n.val ≤ v.toNat
  · exact .inl ⟨h, regOfField_eq_none.2 h⟩
  · exact .inr ⟨h, Option.ne_none_iff_exists'.1 (mt regOfField_eq_none.1 h)⟩

/-! ### Each format's decoder refuses for the first failed check

With the register fields settled both sides test the same remaining fields in the same order, and "answers this fault"
moves into the tests' branches. -/

section

variable {n : RegCount} {w : InstrWord} {e : DecodeFault}

theorem decodeRegImm_error_iff {mk : Reg → Word → Instr}
    (hf : formatOf (wordOpcode w).toNat = some .RI ∨ formatOf (wordOpcode w).toNat = some .RA) :
    decodeRegImm n mk w = .error e ↔ firstDecodeFault n w = some e := by
  obtain ⟨hrd, hnone⟩ | ⟨hrd, rd, hsome⟩ := regOfField_cases n (wordRd w)
  · obtain hf | hf := hf <;> simp [decodeRegImm, firstDecodeFault, hf, hrd, hnone]
  · obtain hf | hf := hf <;>
      simp [decodeRegImm, firstDecodeFault, hf, hrd, hsome, apply_ite (· = Except.error e),
        apply_ite (· = some e)]

theorem decodeRegReg_error_iff {mk : Reg → Reg → Instr} (hf : formatOf (wordOpcode w).toNat = some .RR) :
    decodeRegReg n mk w = .error e ↔ firstDecodeFault n w = some e := by
  obtain ⟨hrd, hnone⟩ | ⟨hrd, rd, hsome⟩ := regOfField_cases n (wordRd w)
  · simp [decodeRegReg, firstDecodeFault, hf, hrd, hnone]
  obtain ⟨hrs, hnone⟩ | ⟨hrs, rs, hsome'⟩ := regOfField_cases n (wordRs w)
  · simp [decodeRegReg, firstDecodeFault, hf, hrd, hsome, hrs, hnone]
  · simp [decodeRegReg, firstDecodeFault, hf, hrd, hsome, hrs, hsome', apply_ite (· = Except.error e),
      apply_ite (· = some e)]

theorem decodeReg_error_iff {mk : Reg → Instr} (hf : formatOf (wordOpcode w).toNat = some .R1) :
    decodeReg n mk w = .error e ↔ firstDecodeFault n w = some e := by
  obtain ⟨hrd, hnone⟩ | ⟨hrd, rd, hsome⟩ := regOfField_cases n (wordRd w)
  · simp [decodeReg, firstDecodeFault, hf, hrd, hnone]
  · simp [decodeReg, firstDecodeFault, hf, hrd, hsome, apply_ite (· = Except.error e), apply_ite (· = some e)]

theorem decodeLabel_error_iff {mk : Nat → Instr} (hf : formatOf (wordOpcode w).toNat = some .L) :
    decodeLabel mk w = .error e ↔ firstDecodeFault n w = some e := by
  simp [decodeLabel, firstDecodeFault, hf, apply_ite (· = Except.error e), apply_ite (· = some e)]

end

/-! ### The opcodes without a format (R88, R91) -/

theorem formatOf_eq_none {op : Nat} : formatOf op = none ↔ op = 0 ∨ 0x14 ≤ op := by
  by_cases h : op < 0x14
  · interval_cases op <;> simp [formatOf]
  · have hend : formatOf op = none := List.getD_eq_default _ _ (Nat.le_of_not_lt h)
    exact iff_of_true hend (.inr (Nat.le_of_not_lt h))

/-- The first check of R89 is the opcode's alone (R90). -/
theorem firstDecodeFault_eq_unknownInstruction {n : RegCount} {w : InstrWord} {op : BitVec 8} :
    firstDecodeFault n w = some (.unknownInstruction op) ↔
      formatOf (wordOpcode w).toNat = none ∧ op = wordOpcode w := by
  unfold firstDecodeFault
  split
  · simp [*, eq_comm]
  · split_ifs <;> simp [*]

/-- The decoder answers the first failed check of R89. -/
theorem decode_error_iff {n : RegCount} {w : InstrWord} {e : DecodeFault} :
    decode n w = .error e ↔ firstDecodeFault n w = some e := by
  unfold decode
  split
  case h_1 hop => exact decodeRegImm_error_iff (.inl (by rw [hop]; rfl))
  case h_2 hop | h_3 hop => exact decodeRegImm_error_iff (.inr (by rw [hop]; rfl))
  case h_4 hop | h_5 hop | h_6 hop | h_7 hop | h_8 hop | h_9 hop | h_16 hop | h_17 hop | h_18 hop =>
    exact decodeRegReg_error_iff (by rw [hop]; rfl)
  case h_10 hop | h_11 hop | h_12 hop | h_13 hop | h_14 hop => exact decodeLabel_error_iff (by rw [hop]; rfl)
  case h_15 hop | h_19 hop => exact decodeReg_error_iff (by rw [hop]; rfl)
  case h_20 =>
    have hnone : formatOf (wordOpcode w).toNat = none := by
      rw [formatOf_eq_none]
      simp only [imp_false] at *
      omega
    simp [firstDecodeFault, hnone]

end Sys2Proof.Machine
end

section
/-! The encoding statements (30_encoding.md). -/

namespace Sys2Proof.Machine

/-- Settles O31: each format's decoder reads back the operands its word was packed from. -/
theorem decodeInvertsEncode : Obligations.DecodeInvertsEncode :=
  fun _ _ h => decode_encode h

/-- Settles O32: each format reads every field of the word, and z is zero. -/
theorem encodeInvertsDecode : Obligations.EncodeInvertsDecode :=
  fun _ _ _ h => ⟨encode_decode h, decode_wellFormed h⟩

/-- Settles O33: the decoder of the opcode's format makes the checks of R89 in their order. -/
theorem decodeFaultIsTheFirstFailedCheck : Obligations.DecodeFaultIsTheFirstFailedCheck :=
  fun _ _ _ => decode_error_iff

/-- Settles O34: the first failed check is the opcode's exactly when the opcode has no format. -/
theorem reservedOpcodesAreUnknown : Obligations.ReservedOpcodesAreUnknown := by
  intro n w op
  rw [decode_error_iff, firstDecodeFault_eq_unknownInstruction, formatOf_eq_none, and_comm]
  exact and_congr_right fun h => by rw [h]

/-- Settles O39: the step takes the decoder's fault, which is the first failed check. -/
theorem decodeFaultsAreTaken : Obligations.DecodeFaultsAreTaken := by
  refine fun s w hf hw => ⟨fun op h => ?_, fun field h => ?_⟩
  · exact ⟨_, step_eq_of_decode_error hf hw (decode_error_iff.2 h), faultTaken_enterFault _ _ _ _⟩
  · exact ⟨_, step_eq_of_decode_error hf hw (decode_error_iff.2 h), faultTaken_enterFault _ _ _ _⟩

end Sys2Proof.Machine
end

section
/-! SUPPORT. The assembler (R100 to R119): what an accepted program is made of, every instruction it encodes is well
formed, and its labels point into it. -/

namespace Sys2Proof.Machine

/-! ### Operand tokens name registers and numbers in range (R110, R111, R113) -/

theorem registerExists_of_parseReg {n : RegCount} {token : List Char} {r : Reg} (h : parseReg n token = some r) :
    registerExists n r = true := by
  unfold parseReg at h
  split at h
  · split at h
    · split at h
      · cases h
        simpa [registerExists]
      · cases h
    · cases h
  · cases h

theorem addressEncodable_of_parseImm {token : List Char} {v : Int} (h : parseImm token = some v) :
    addressEncodable v = true :=
  (Option.filter_eq_some_iff.1 h).2

/-- A label's id is a position in the definitions or the id of no label (R113). -/
theorem labelIdFrom_lt_or_eq (name : List Char) (id : Nat) (labels : List (List Char × Nat)) :
    labelIdFrom name id labels < id + labels.length ∨ labelIdFrom name id labels = 0xFFFFFFFF := by
  induction labels generalizing id with
  | nil => exact .inr rfl
  | cons l rest ih =>
    have hrest := ih (id + 1)
    unfold labelIdFrom
    split
    · simp
    · simp only [List.length_cons]
      omega

theorem labelEncodable_labelIdFrom {labels : List (List Char × Nat)} (h : labels.length ≤ 0xFFFFFFFF)
    (name : List Char) : labelEncodable (labelIdFrom name 0 labels) = true := by
  have hid := labelIdFrom_lt_or_eq name 0 labels
  simp only [labelEncodable, decide_eq_true_eq]
  omega

/-! ### An instruction line is word 0 or the word of a well-formed instruction (R108, R116) -/

/-- The shape's instructions are well formed with operands in range. -/
def Shape.WellFormed (n : RegCount) : Shape → Prop
  | .regImm mk => ∀ rd v, registerExists n rd = true → addressEncodable v = true → (mk rd v).wellFormed n = true
  | .regReg mk => ∀ rd rs, registerExists n rd = true → registerExists n rs = true → (mk rd rs).wellFormed n = true
  | .reg mk => ∀ rd, registerExists n rd = true → (mk rd).wellFormed n = true
  | .label mk => ∀ id, labelEncodable id = true → (mk id).wellFormed n = true

theorem mnemonicShapes_wellFormed (n : RegCount) : ∀ entry ∈ mnemonicShapes, entry.2.WellFormed n := by
  simp +contextual [mnemonicShapes, Shape.WellFormed, Instr.wellFormed]

theorem mem_of_shapeOf {mnemonic : List Char} {shape : Shape} {table : List (String × Shape)}
    (h : shapeOf mnemonic table = some shape) : ∃ name, (name, shape) ∈ table := by
  induction table with
  | nil => cases h
  | cons entry rest ih =>
    unfold shapeOf at h
    split at h
    · cases h
      exact ⟨_, List.mem_cons_self⟩
    · obtain ⟨name, hmem⟩ := ih h
      exact ⟨name, List.mem_cons_of_mem _ hmem⟩

theorem parseOperands_wellFormed {n : RegCount} {labels : List (List Char × Nat)} {shape : Shape}
    {operands : List (List Char)} {i : Instr} (hshape : shape.WellFormed n) (hlabels : labels.length ≤ 0xFFFFFFFF)
    (h : parseOperands n labels shape operands = some i) : i.wellFormed n = true := by
  unfold parseOperands at h
  split at h
  · split at h
    · rename_i rd v hrd hv
      cases h
      exact hshape rd v (registerExists_of_parseReg hrd) (addressEncodable_of_parseImm hv)
    · cases h
  · split at h
    · rename_i rd rs hrd hrs
      cases h
      exact hshape rd rs (registerExists_of_parseReg hrd) (registerExists_of_parseReg hrs)
    · cases h
  · obtain ⟨rd, hrd, rfl⟩ := Option.map_eq_some_iff.1 h
    exact hshape rd (registerExists_of_parseReg hrd)
  · cases h
    exact hshape _ (labelEncodable_labelIdFrom hlabels _)
  · cases h

theorem assembleInstruction_ok {n : RegCount} {labels : List (List Char × Nat)} {mnemonic : List Char}
    {operands : List (List Char)} {w : InstrWord} (hlabels : labels.length ≤ 0xFFFFFFFF)
    (h : assembleInstruction n labels mnemonic operands = .ok w) :
    w = 0 ∨ ∃ i, i.wellFormed n = true ∧ w = encode i := by
  unfold assembleInstruction at h
  split at h
  · cases h
    exact .inl rfl
  · rename_i shape hshape
    split at h
    · rename_i i hi
      cases h
      obtain ⟨name, hmem⟩ := mem_of_shapeOf hshape
      exact .inr ⟨i, parseOperands_wellFormed (mnemonicShapes_wellFormed n _ hmem) hlabels hi, rfl⟩
    · cases h

/-! ### The words of the lines -/

theorem assembleLines_instruction_ok {n : RegCount} {labels : List (List Char × Nat)} {mnemonic : List Char}
    {operands : List (List Char)} {rest : List SourceLine} {words : List InstrWord}
    (h : assembleLines n labels (.instruction mnemonic operands :: rest) = .ok words) :
    ∃ w tail, assembleInstruction n labels mnemonic operands = .ok w ∧ assembleLines n labels rest = .ok tail ∧
      words = w :: tail := by
  simp only [assembleLines] at h
  split at h
  · cases h
  · cases h
  · cases h
    exact ⟨_, _, ‹_›, ‹_›, rfl⟩

/-- Every assembled word comes from one instruction line. -/
theorem exists_line_of_mem_assembleLines {n : RegCount} {labels : List (List Char × Nat)} {lines : List SourceLine}
    {words : List InstrWord} (h : assembleLines n labels lines = .ok words) {w : InstrWord} (hw : w ∈ words) :
    ∃ mnemonic operands, assembleInstruction n labels mnemonic operands = .ok w := by
  induction lines generalizing words with
  | nil =>
    cases h
    cases hw
  | cons line rest ih =>
    cases line with
    | label name => exact ih h hw
    | instruction mnemonic operands =>
      obtain ⟨head, tail, hhead, htail, rfl⟩ := assembleLines_instruction_ok h
      obtain rfl | hw := List.mem_cons.1 hw
      · exact ⟨mnemonic, operands, hhead⟩
      · exact ih htail hw

/-- A label's address counts instructions before it, each of which gives one word (R105). -/
theorem collectLabels_address_le {n : RegCount} {labels : List (List Char × Nat)} {lines : List SourceLine}
    {words : List InstrWord} (h : assembleLines n labels lines = .ok words) {emitted : Nat} {l : List Char × Nat}
    (hl : l ∈ collectLabels emitted lines) : l.2 ≤ emitted + words.length := by
  induction lines generalizing words emitted with
  | nil => cases hl
  | cons line rest ih =>
    cases line with
    | label name =>
      obtain rfl | hl := List.mem_cons.1 hl
      · exact Nat.le_add_right _ _
      · exact ih h hl
    | instruction mnemonic operands =>
      obtain ⟨head, tail, -, htail, rfl⟩ := assembleLines_instruction_ok h
      have hrest := ih htail hl
      simp only [List.length_cons]
      omega

/-! ### An accepted program -/

/-- Everything an accepted program is: its lines' words and its labels' addresses, within the capacities. -/
theorem assemble_ok {params : Params} {text : List Char} {p : Program} (h : assemble params text = .ok p) :
    ∃ lines, assembleLines params.nreg (collectLabels 0 lines) lines = .ok p.words ∧
      p.labels = (collectLabels 0 lines).map Prod.snd ∧ p.words.length ≤ params.imemDepth.val ∧
      (collectLabels 0 lines).length ≤ params.labelCap.val := by
  unfold assemble at h
  split at h
  · cases h
  · rename_i lines _
    simp only at h
    split at h
    · split at h
      · cases h
      · split at h
        · rename_i words hwords hfit
          cases h
          exact ⟨lines, hwords, rfl, hfit.1, hfit.2⟩
        · cases h
    · cases h

/-- The program is within the capacities and its labels point into it or to its end (R105, R115). -/
def Program.Fits (params : Params) (p : Program) : Prop :=
  p.words.length ≤ params.imemDepth.val ∧ p.labels.length ≤ params.labelCap.val ∧ ∀ a ∈ p.labels, a ≤ p.words.length

theorem assemble_fits {params : Params} {text : List Char} {p : Program} (h : assemble params text = .ok p) :
    p.Fits params := by
  obtain ⟨lines, hlines, hlabels, hwords, hcap⟩ := assemble_ok h
  refine ⟨hwords, by simpa [hlabels] using hcap, fun a ha => ?_⟩
  rw [hlabels] at ha
  obtain ⟨l, hl, rfl⟩ := List.mem_map.1 ha
  simpa using collectLabels_address_le hlines hl

end Sys2Proof.Machine
end

section
/-! SUPPORT. The boot sequence of R303, event by event: where its writes land, and the image it leaves. -/

namespace Sys2Proof.Machine

/-! ### Values placed one after another -/

/-- The cells with the values at `k`, `k + 1`, …, as a row of host writes leaves them. -/
def cellsPlaced {α : Type} (k : Nat) : List α → List (Nat × α) → List (Nat × α)
  | [], cells => cells
  | v :: rest, cells => cellsPlaced (k + 1) rest (cellSet k v cells)

/-- A place from `k` on holds its value, where there is one, and every other place what it held. -/
theorem cellAt_cellsPlaced {α : Type} (k q : Nat) (values : List α) (cells : List (Nat × α)) :
    cellAt q (cellsPlaced k values cells) =
      if k ≤ q then (values[q - k]?).or (cellAt q cells) else cellAt q cells := by
  induction values generalizing k cells with
  | nil => simp [cellsPlaced]
  | cons v rest ih =>
    rw [cellsPlaced, ih, cellAt_cellSet]
    obtain hlt | rfl | hgt := Nat.lt_trichotomy q k
    · rw [if_neg (by omega), if_neg (by omega), if_neg (by omega)]
    · simp
    · rw [if_pos (by omega), if_neg (by omega), if_pos (by omega), show q - k = (q - (k + 1)) + 1 by omega,
        List.getElem?_cons_succ]

theorem cellAt_cellsPlaced_zero {α : Type} {q : Nat} {values : List α} (hq : q < values.length)
    (cells : List (Nat × α)) : cellAt q (cellsPlaced 0 values cells) = values[q]? := by
  simp [cellAt_cellsPlaced, hq]

/-- In a rising list an entry that is listed is read. -/
theorem cellAt_of_mem {α : Type} {low : Nat} {c : Nat × α} {cells : List (Nat × α)}
    (hr : risingFrom low cells = true) (hc : c ∈ cells) : cellAt c.1 cells = some c.2 := by
  induction cells generalizing low with
  | nil => cases hc
  | cons d rest ih =>
    obtain ⟨j, u⟩ := d
    simp only [risingFrom, Bool.and_eq_true] at hr
    obtain rfl | hc := List.mem_cons.1 hc
    · simp [cellAt]
    · have hrest := ih hr.2 hc
      have hne : j ≠ c.1 := by
        rintro rfl
        simp [cellAt_none_of_risingFrom (Nat.lt_succ_self c.1) hr.2] at hrest
      rw [cellAt, if_neg hne, hrest]

/-! ### The writes of the boot sequence, under `rst` -/

theorem hostEvents_cons {e : HostEvent} {s t : State} (h : hostEvent e s = .next t) (rest : List HostEvent) :
    hostEvents (e :: rest) s = hostEvents rest t := by
  simp [hostEvents, h]

theorem hostEvents_append_next {first : List HostEvent} {s t : State} (h : hostEvents first s = .next t)
    (second : List HostEvent) : hostEvents (first ++ second) s = hostEvents second t := by
  simp [hostEvents_append, h]

theorem hostEvent_writeImem_eq {s : State} (hrst : s.rst = true) {k : Nat} (hk : k < s.params.imemDepth.val)
    (w : InstrWord) :
    hostEvent (.writeImem (BitVec.ofNat 10 k) w) s = .next { s with imem := cellSet k w s.imem } := by
  have haddr : (BitVec.ofNat 10 k).toNat = k := toNat_ofNat_of_lt (by omega)
  simpa [hostEvent, haddr] using hostWriteImem_eq hrst (addr := BitVec.ofNat 10 k) (by omega) w

theorem hostEvent_writeLabel_eq {s : State} (hrst : s.rst = true) {id : Nat} (hid : id < s.params.labelCap.val)
    (data : BitVec 11) :
    hostEvent (.writeLabel (BitVec.ofNat 7 id) data) s =
      .next { s with lt := cellSet id (labelEntryOfBits data) s.lt } := by
  have hport : (BitVec.ofNat 7 id).toNat = id := toNat_ofNat_of_lt (by omega)
  simpa [hostEvent, hport] using hostWriteLabel_eq hrst (id := BitVec.ofNat 7 id) (by omega) data

theorem hostEvents_imemWrites {s : State} (hrst : s.rst = true) {k : Nat} {words : List InstrWord}
    (hfit : k + words.length ≤ s.params.imemDepth.val) :
    hostEvents (imemWrites k words) s = .next { s with imem := cellsPlaced k words s.imem } := by
  induction words generalizing k s with
  | nil => rfl
  | cons w rest ih =>
    rw [List.length_cons] at hfit
    have hwrite := hostEvent_writeImem_eq hrst (k := k) (by omega) w
    have hrest := ih (s := { s with imem := cellSet k w s.imem }) (k := k + 1) hrst (by simp only; omega)
    exact (hostEvents_cons hwrite _).trans hrest

/-- The writes of `count` label entries from `k` on. -/
def labelWrites (labels : List Nat) (k count : Nat) : List HostEvent :=
  (List.range' k count).map fun id => .writeLabel (BitVec.ofNat 7 id) (labelBits labels id)

/-- The entries those writes leave. -/
def labelEntries (labels : List Nat) (k count : Nat) : List LabelEntry :=
  (List.range' k count).map fun id => labelEntryOfBits (labelBits labels id)

theorem hostEvents_labelWrites (labels : List Nat) {s : State} (hrst : s.rst = true) {k count : Nat}
    (hfit : k + count ≤ s.params.labelCap.val) :
    hostEvents (labelWrites labels k count) s =
      .next { s with lt := cellsPlaced k (labelEntries labels k count) s.lt } := by
  induction count generalizing k s with
  | zero => rfl
  | succ count ih =>
    have hwrite := hostEvent_writeLabel_eq hrst (id := k) (by omega) (labelBits labels k)
    have hrest := ih (s := { s with lt := cellSet k (labelEntryOfBits (labelBits labels k)) s.lt }) (k := k + 1) hrst
      (by simp only; omega)
    exact (hostEvents_cons hwrite _).trans hrest

/-- The block after the boot sequence of `p` (R303). -/
def State.booted (p : Program) (s : State) : State :=
  State.releaseReset
    { s.assertReset with
      imem := cellsPlaced 0 p.words s.imem
      lt := cellsPlaced 0 (labelEntries p.labels 0 s.params.labelCap.val) s.lt
      progLen := some (BitVec.ofNat 10 p.words.length) }

theorem State.booted_lt (p : Program) (s : State) :
    (s.booted p).lt = cellsPlaced 0 (labelEntries p.labels 0 s.params.labelCap.val) s.lt := rfl
@[simp] theorem State.booted_progLen (p : Program) (s : State) :
    (s.booted p).progLen = some (BitVec.ofNat 10 p.words.length) := rfl
@[simp] theorem State.booted_params (p : Program) (s : State) : (s.booted p).params = s.params := rfl

/-- After the reset that begins it, the boot sequence runs to its end. -/
theorem hostEvents_bootEvents_tail {p : Program} {s : State} (hfit : p.words.length ≤ s.params.imemDepth.val) :
    hostEvents (bootEvents s.params p).tail s.assertReset = .next (s.booted p) := by
  have himem := hostEvents_imemWrites (s := s.assertReset) rfl (k := 0) (words := p.words) (by simpa using hfit)
  have hlabels := hostEvents_labelWrites p.labels
    (s := { s.assertReset with imem := cellsPlaced 0 p.words s.imem }) rfl (k := 0) (count := s.params.labelCap.val)
    (by simp)
  have htail : (bootEvents s.params p).tail = imemWrites 0 p.words ++
      (labelWrites p.labels 0 s.params.labelCap.val ++
        [.setProgLen (BitVec.ofNat 10 p.words.length), .releaseRst]) := by
    simp [bootEvents, labelWrites, List.range_eq_range']
  rw [htail, hostEvents_append_next himem]
  exact hostEvents_append_next hlabels _

theorem hostEvents_bootEvents {p : Program} {s : State} (hfit : p.words.length ≤ s.params.imemDepth.val) :
    hostEvents (bootEvents s.params p) s = .next (s.booted p) :=
  (hostEvents_cons (t := s.assertReset) rfl _).trans (hostEvents_bootEvents_tail hfit)

/-- Every sequence of host events keeps the invariant, as each of its events does. -/
theorem State.Inv.hostEvents {events : List HostEvent} {s t : State} (h : s.Inv)
    (he : Machine.hostEvents events s = .next t) : t.Inv := by
  induction events generalizing s with
  | nil =>
    cases he
    exact h
  | cons e rest ih =>
    unfold Machine.hostEvents at he
    split at he
    · exact ih (h.hostEvent ‹_›) he
    · cases he
    · cases he

/-! ### The image the boot sequence leaves -/

theorem imageProblem_eq_none_of {s : State} (hwritten : s.progLen ≠ none) (hlen : s.len ≤ s.params.imemDepth.val)
    (himem : listsAllBelow s.len s.imem = true) (hlt : listsAllBelow s.params.labelCap.val s.lt = true)
    (htargets : ∀ c ∈ s.lt, c.2.v = true → c.2.addr.toNat ≤ s.len) : s.imageProblem = none := by
  have hany : s.lt.any (fun c => c.2.v && decide (s.len < c.2.addr.toNat)) = false := by
    rw [List.any_eq_false]
    intro c hc
    simpa using htargets c hc
  simp [State.imageProblem, hwritten, Nat.not_lt.2 hlen, himem, hlt, hany]

theorem labelTarget_of_entry {s : State} {id : Nat} {e : LabelEntry} (hid : id < s.params.labelCap.val)
    (h : cellAt id s.lt = some e) : s.labelTarget id = if e.v then some e.addr.toNat else none := by
  simp only [State.labelTarget, hid, h, if_true]

/-- A defined label's entry is valid and holds its address (R114). -/
theorem labelEntryOfBits_labelBits_some {labels : List Nat} {id addr : Nat} (h : labels[id]? = some addr) :
    labelEntryOfBits (labelBits labels id) = { v := true, addr := BitVec.ofNat 10 addr } := by
  simp only [labelBits, h]
  exact labelEntryOfBits_append 1 _

theorem labelEntryOfBits_labelBits_none {labels : List Nat} {id : Nat} (h : labels[id]? = none) :
    (labelEntryOfBits (labelBits labels id)).v = false := by
  simp only [labelBits, h]
  rfl

section

variable {p : Program} {s : State}

theorem State.booted_imageInBounds (hfit : p.Fits s.params) (h : s.imageInBounds) : (s.booted p).imageInBounds := by
  obtain ⟨hwords, -, -⟩ := hfit
  obtain ⟨-, himage, -⟩ := (State.inv_assertReset h).hostEvents (hostEvents_bootEvents_tail hwords)
  exact himage

theorem State.booted_len (hfit : p.Fits s.params) : (s.booted p).len = p.words.length := by
  obtain ⟨hwords, -, -⟩ := hfit
  exact toNat_ofNat_of_lt (by omega)

theorem State.cellAt_booted_imem {k : Nat} (hk : k < p.words.length) :
    cellAt k (s.booted p).imem = p.words[k]? :=
  cellAt_cellsPlaced_zero hk _

theorem State.cellAt_booted_lt {id : Nat} (hid : id < s.params.labelCap.val) :
    cellAt id (s.booted p).lt = some (labelEntryOfBits (labelBits p.labels id)) := by
  rw [State.booted_lt, cellAt_cellsPlaced_zero (by simpa [labelEntries] using hid)]
  simp [labelEntries, hid]

/-- A label resolves to its address, and an undefined one not at all (R114, R202). -/
theorem State.labelTarget_booted (hfit : p.Fits s.params) (id : Nat) : (s.booted p).labelTarget id = p.labels[id]? := by
  obtain ⟨hwords, hcap, haddr⟩ := hfit
  by_cases hid : id < s.params.labelCap.val
  · rw [labelTarget_of_entry (s := s.booted p) hid (State.cellAt_booted_lt hid)]
    cases hlabel : p.labels[id]? with
    | none => rw [labelEntryOfBits_labelBits_none hlabel, if_neg Bool.false_ne_true]
    | some addr =>
      have hle := haddr addr (List.mem_of_getElem? hlabel)
      rw [labelEntryOfBits_labelBits_some hlabel, if_pos rfl, toNat_ofNat_of_lt (by omega)]
  · have hnone : p.labels[id]? = none := List.getElem?_eq_none (by omega)
    rw [hnone]
    exact if_neg hid

theorem State.booted_imageProblem (hfit : p.Fits s.params) (h : s.imageInBounds) :
    (s.booted p).imageProblem = none := by
  obtain ⟨himem, -, hlt, hbound⟩ := State.booted_imageInBounds hfit h
  have hlen := State.booted_len hfit
  have htarget := State.labelTarget_booted hfit
  obtain ⟨hwords, -, haddr⟩ := hfit
  refine imageProblem_eq_none_of (by simp) (hlen.le.trans hwords) ?_ ?_ fun c hc hv => ?_
  · refine listsAllBelow_of_rising himem fun k hk => ?_
    rw [hlen] at hk
    simp [State.cellAt_booted_imem hk, hk]
  · refine listsAllBelow_of_rising hlt fun id hid => ?_
    rw [State.cellAt_booted_lt (s := s) hid, Option.isSome_some]
  · have hresolved : (s.booted p).labelTarget c.1 = some c.2.addr.toNat := by
      rw [labelTarget_of_entry (hbound c hc) (cellAt_of_mem hlt hc), if_pos hv]
    rw [hlen]
    exact haddr _ (List.mem_of_getElem? ((htarget c.1).symm.trans hresolved))

end

end Sys2Proof.Machine
end

section
/-! SUPPORT. The host's lines, spelled out (R306, R308). -/

namespace Sys2Proof.Machine

theorem printLine_eq (d : Reg) (v : Word) :
    printLine (d, v) = "Value in R" ++ toString d.val ++ ": " ++ toString v.toInt := by
  have hprefix : "Value in " ++ "R" = "Value in R" := rfl
  simp only [printLine, showReg, showWord, sint, ← String.append_assoc, hprefix]

theorem dumpLines_length (s : State) : (dumpLines s).length = s.params.nreg.val := by
  have hmax : s.params.nreg.val ≤ 10 := by omega
  simp [dumpLines, hmax]

theorem dumpLines_getElem? {s : State} {r : Reg} (hr : r.val < s.params.nreg.val) :
    (dumpLines s)[r.val]? = some ("R" ++ toString r.val ++ " = " ++ toString (s.reg r).toInt) := by
  have hindex : (List.finRange 10)[r.val]? = some r := by simp
  simp only [dumpLines, List.getElem?_map, List.getElem?_take_of_lt hr, hindex, Option.map_some, showReg, showWord,
    sint]

end Sys2Proof.Machine
end

section
/-! The statements about the host's software (30_encoding.md). -/

namespace Sys2Proof.Machine

/-- Settles O52: a word is 0 or encodes an instruction whose operands the parser checked, which then decodes. -/
theorem assembledWordsAreNeverIllegal : Obligations.AssembledWordsAreNeverIllegal := by
  intro params text p h w hw
  obtain ⟨lines, hlines, -, -, hcap⟩ := assemble_ok h
  obtain ⟨mnemonic, operands, hline⟩ := exists_line_of_mem_assembleLines hlines hw
  have hids : (collectLabels 0 lines).length ≤ 0xFFFFFFFF := by omega
  obtain hzero | ⟨i, hi, rfl⟩ := assembleInstruction_ok hids hline
  · exact .inl hzero
  · exact .inr ⟨i, decode_encode hi⟩

/-- Settles O53: the assembler checks both capacities, and a label counts words before it. -/
theorem assembledProgramsFit : Obligations.AssembledProgramsFit :=
  fun _ _ _ h => assemble_fits h

/-- Settles O54: the events place the words and the label entries one after another over any earlier image. -/
theorem bootLoadsTheProgram : Obligations.BootLoadsTheProgram := by
  intro text p s h himage
  have hfit := assemble_fits h
  have ⟨hwords, _, _⟩ := hfit
  exact ⟨s.booted p, hostEvents_bootEvents hwords, rfl, rfl, rfl, State.booted_imageProblem hfit himage,
    State.booted_len hfit, fun _ hk => State.cellAt_booted_imem hk, State.labelTarget_booted hfit⟩

/-- Settles O55: the output, the diagnostics and the exit code are read off STATUS, the dump register by register. -/
theorem hostReportsTheRun : Obligations.HostReportsTheRun := by
  refine ⟨printLine_eq, fun message s => ⟨fun hhalted => ?_, fun hfaulted => ?_, fun hrunning => ?_, ?_, fun _ => rfl⟩⟩
  · have hout : hostOutput s = s.out.map printLine ++ dumpLines s := by simp [hostOutput, hhalted]
    exact ⟨⟨dumpLines s, hout, dumpLines_length s, fun _ hr => dumpLines_getElem? hr⟩,
      by simp [hostDiagnostics, hhalted], by simp [exitCode, hhalted]⟩
  · simp [hostOutput, hostDiagnostics, exitCode, hfaulted]
  · simp [exitCode, hrunning]
  · intro e
    cases e <;> rfl

end Sys2Proof.Machine
end

section
/-! SUPPORT. The execution cycle (R130 to R138): a step by what it finds, a fault or a kept run record, where the pc
goes, and that an instruction with its word at the pc always completes. -/

namespace Sys2Proof.Machine

/-! ### The steps that run no instruction -/

theorem step_eq_of_not_running {s : State} (h : s.status ≠ .running) : step s = .next s := by
  cases hrst : s.rst <;> simp [step, beginStep, hrst, h]

theorem step_eq_of_rst {s : State} (h : s.rst = true) : step s = .next s := by
  simp [step, beginStep, h]

theorem step_eq_halt {s : State} (hrst : s.rst = false) (hstatus : s.status = .running)
    (himage : s.imageProblem = none) (hend : s.len ≤ s.pc) : step s = .next s.halt := by
  simp [step, beginStep, hrst, hstatus, himage, hend]

/-! ### A fault or a kept run record (R269, R270) -/

/-- Of an instruction's seven effects only the fault entry writes STATUS or a fault register. -/
theorem exec_sameRunRecord_or_enterFault {i : Instr} {s t : State} (h : exec i s = .next t) :
    sameRunRecord s t ∨ ∃ c info w, c ≠ .none ∧ s.wordAtPc = some w ∧ t = s.enterFault c info w := by
  cases exec_next h with
  | fault c info w hc hw => exact .inr ⟨c, info, w, hc, hw, rfl⟩
  | register | memory | flag | output | jump | untaken => exact .inl ⟨rfl, rfl, rfl, rfl, rfl⟩

/-! ### The pc (R135) -/

theorem step_pc_of_faulted {s t : State} (hf : s.fetching) (h : step s = .next t) (ht : t.status = .faulted) :
    t.pc = s.pc := by
  obtain ⟨-, hrunning, -, -⟩ := hf
  obtain ⟨-, rfl⟩ | ⟨-, -, -, -, rfl⟩ | ⟨-, w, e, -, -, rfl⟩ | ⟨i, -, hx⟩ := step_next h
  · rfl
  · rfl
  · rfl
  · obtain ⟨hstatus, -⟩ | ⟨c, info, w, -, -, rfl⟩ := exec_sameRunRecord_or_enterFault hx
    · simp [hstatus, hrunning] at ht
    · rfl

/-- An instruction that writes a register is no jump (R23, R208). -/
theorem takenLabel_of_destination {i : Instr} {rd : Reg} (h : destination i = some rd) (f : Flag) :
    takenLabel i f = none := by
  cases i with
  | jmp | jne | jeq | jgt | jlt => cases h
  | load | store | loadm | add | sub | mul | div | mov | cmp | print | and | or | xor | not => rfl

theorem exec_pc_of_no_jump {i : Instr} {s t : State} (h : exec i s = .next t) (ht : t.status ≠ .faulted)
    (hi : takenLabel i s.flag = none) : t.pc = s.pc + 1 := by
  cases exec_next h with
  | register | memory | flag | output | untaken => rfl
  | jump id target htaken => simp [hi] at htaken
  | fault => exact absurd rfl ht

theorem exec_pc_of_jump {i : Instr} {s t : State} {id : Nat} (h : exec i s = .next t) (ht : t.status ≠ .faulted)
    (hi : takenLabel i s.flag = some id) : s.labelTarget id = some t.pc := by
  cases exec_next h with
  | jump resolved target htaken htarget =>
    obtain rfl : resolved = id := Option.some.inj (htaken.symm.trans hi)
    exact htarget
  | fault => exact absurd rfl ht
  | register rd v hd => simp [takenLabel_of_destination hd] at hi
  | memory _ _ heq | flag _ _ heq | output _ heq =>
    subst heq
    cases hi
  | untaken _ hn => simp [hn] at hi

/-! ### Completion: a fault has its word, so every instruction answers a next state (R137, R138) -/

section

variable {s : State} {w : InstrWord} (hw : s.wordAtPc = some w)
include hw

theorem takeFault_completes (c : Cause) (info : Word) : ∃ t, takeFault c info s = .next t :=
  ⟨_, takeFault_eq hw c info⟩

theorem writeExact_completes (rd : Reg) (r : Int) : ∃ t, writeExact rd r s = .next t := by
  unfold writeExact
  split
  · exact ⟨_, rfl⟩
  · split
    · exact ⟨_, rfl⟩
    · exact takeFault_completes hw _ _

theorem takeJump_completes (id : Nat) : ∃ t, takeJump id s = .next t := by
  unfold takeJump
  split
  · exact ⟨_, rfl⟩
  · exact takeFault_completes hw _ _

theorem jumpIf_completes (taken : Bool) (id : Nat) : ∃ t, jumpIf taken id s = .next t := by
  cases taken with
  | true => exact takeJump_completes hw id
  | false => exact ⟨_, rfl⟩

theorem execDiv_completes (rd rs : Reg) : ∃ t, execDiv rd rs s = .next t := by
  simp only [execDiv]
  split
  · exact takeFault_completes hw _ _
  · split
    · split
      · exact takeFault_completes hw _ _
      · exact ⟨_, rfl⟩
    · exact ⟨_, rfl⟩

theorem execStore_completes (rd : Reg) (addr : Int) : ∃ t, execStore rd addr s = .next t := by
  unfold execStore
  split
  · exact ⟨_, rfl⟩
  · exact takeFault_completes hw _ _

theorem execLoadm_completes (rd : Reg) (addr : Int) : ∃ t, execLoadm rd addr s = .next t := by
  unfold execLoadm
  split
  · exact ⟨_, rfl⟩
  · exact takeFault_completes hw _ _

theorem exec_completes (i : Instr) : ∃ t, exec i s = .next t := by
  cases i with
  | load | mov | cmp | print | and | or | xor | not => exact ⟨_, rfl⟩
  | store rd addr => exact execStore_completes hw rd addr
  | loadm rd addr => exact execLoadm_completes hw rd addr
  | add rd rs | sub rd rs | mul rd rs => exact writeExact_completes hw rd _
  | div rd rs => exact execDiv_completes hw rd rs
  | jmp id => exact takeJump_completes hw id
  | jne id | jeq id | jgt id | jlt id => exact jumpIf_completes hw _ id

end

/-- A step answers a next state or is refused for its image's problem: nothing else stops it. -/
theorem step_completes_or_refused (s : State) :
    (∃ t, step s = .next t) ∨ ∃ r, s.imageProblem = some r ∧ step s = .refused r := by
  cases hb : beginStep s with
  | ok i =>
    obtain ⟨-, w, hw, -⟩ := beginStep_ok hb
    rw [step_eq_exec hb]
    exact .inl (exec_completes hw i)
  | error outcome =>
    have hstep : step s = outcome := by simp [step, hb]
    rw [hstep]
    obtain ⟨-, rfl⟩ | ⟨-, rfl⟩ | ⟨r, hr, rfl⟩ | ⟨-, -, -, -, rfl⟩ | ⟨-, w, e, -, -, rfl⟩ := beginStep_error hb
    · exact .inl ⟨_, rfl⟩
    · exact .inl ⟨_, rfl⟩
    · exact .inr ⟨r, hr, rfl⟩
    · exact .inl ⟨_, rfl⟩
    · exact .inl ⟨_, rfl⟩

end Sys2Proof.Machine
end

section
/-! The execution-cycle statements (40_execution_cycle.md). -/

namespace Sys2Proof.Machine

/-- Settles O29: the one effect that writes the run record is the fault entry, whose frame is everything else. -/
theorem faultsAreAllOrNothing : Obligations.FaultsAreAllOrNothing := by
  intro i s t h
  obtain hkept | ⟨c, info, w, hc, hw, rfl⟩ := exec_sameRunRecord_or_enterFault h
  · exact .inl hkept
  · exact .inr ⟨c, info, w, hc, hw, faultTaken_enterFault s c info w⟩

/-- Settles O30: the effect of the instruction is an advance, its taken jump or a fault; the flag it finds says which
of the first two. -/
theorem pcAdvancesJumpsOrStays : Obligations.PcAdvancesJumpsOrStays := by
  refine fun s t hf h => ⟨step_pc_of_faulted hf h, fun i hb ht => ?_⟩
  have hx : exec i s = .next t := (step_eq_exec hb).symm.trans h
  exact ⟨exec_pc_of_no_jump hx ht, fun id => exec_pc_of_jump hx ht⟩

/-- Settles O40: a step completes or meets its image's problem, and the two exclude each other. -/
theorem stepAlwaysCompletes : Obligations.StepAlwaysCompletes := by
  refine ⟨fun s himage => ?_, fun s r h => ?_, fun s r h => ?_⟩
  all_goals obtain ⟨t, ht⟩ | ⟨e, he, hrefused⟩ := step_completes_or_refused s
  · exact ⟨t, ht⟩
  · simp [himage] at he
  · cases h.symm.trans ht
  · cases h.symm.trans hrefused
    exact he
  · cases h.symm.trans ht
  · cases h.symm.trans hrefused

/-- Settles O36: beginning the step yields the decoded instruction, and the step runs it. -/
theorem stepRunsTheDecodedInstruction : Obligations.StepRunsTheDecodedInstruction :=
  fun _ _ _ hf hw hd => step_eq_exec (beginStep_eq_ok hf hw hd)

/-- Settles O37: the halt is the update of STATUS alone. -/
theorem stepHaltsAtTheEnd : Obligations.StepHaltsAtTheEnd :=
  fun _ hrst hstatus himage hend => step_eq_halt hrst hstatus himage hend

/-- Settles O38: `rst` and STATUS are looked at before anything else. -/
theorem noStepOutsideRunning : Obligations.NoStepOutsideRunning := by
  rintro s (hstatus | hrst)
  · exact step_eq_of_not_running hstatus
  · exact step_eq_of_rst hrst

end Sys2Proof.Machine
end

section
/-! SUPPORT. The parts every instruction statement is made of: the fields of a packed word (R81), the frames of a register
write and of a stored word, and the fault an instruction answers (R270). -/

namespace Sys2Proof.Machine

theorem hasFields_packWord {rd rs : BitVec 4} {d e : Nat} (hd : rd.toNat = d) (he : rs.toNat = e) (op : BitVec 8)
    (imm : Word) : hasFields (packWord op rd rs imm) op d e imm :=
  ⟨wordOpcode_packWord .., by rw [wordRd_packWord, hd], by rw [wordRs_packWord, he], wordZ_packWord ..,
    wordImm_packWord ..⟩

theorem registerWritten_setReg_advance (rd : Reg) (v : Word) (s : State) :
    registerWritten rd v s ((s.setReg rd v).advance) := by
  refine ⟨State.reg_setReg_same s rd v, fun q hq => ?_, rfl, rfl, fun _ => rfl, rfl, ⟨rfl, rfl, rfl, rfl, rfl⟩,
    ⟨rfl, rfl, rfl, rfl, rfl⟩⟩
  simp [State.reg_setReg, hq]

theorem wordStored_setMem_advance (k : Nat) (v : Word) (s : State) :
    wordStored k v s ((s.setMem k v).advance) := by
  refine ⟨?_, fun a ha => ?_, rfl, rfl, fun _ => rfl, rfl, ⟨rfl, rfl, rfl, rfl, rfl⟩, ⟨rfl, rfl, rfl, rfl, rfl⟩⟩
  · simp [State.mem_setMem]
  · simp [State.mem_setMem, ha]

theorem answersFault_takeFault (c : Cause) (info : Word) (s : State) :
    answersFault (takeFault c info s) c info s :=
  fun w hw => ⟨_, takeFault_eq hw c info, faultTaken_enterFault s c info w⟩

/-! ### STORE and LOADM outside the bounds (R265) -/

theorem dataIndex_of_outside {depth : Nat} {addr : Int} (h : addr < 0 ∨ depth ≤ addr) :
    dataIndex depth addr = none := by
  rw [dataIndex_eq_none]
  omega

theorem exec_store_eq_takeFault {addr : Int} {s : State} (h : addr < 0 ∨ s.params.dmemDepth ≤ addr) (rd : Reg) :
    exec (.store rd addr) s = takeFault .memoryOutOfBounds (bits32 addr) s := by
  simp [exec, execStore, dataIndex_of_outside h]

theorem exec_loadm_eq_takeFault {addr : Int} {s : State} (h : addr < 0 ∨ s.params.dmemDepth ≤ addr) (rd : Reg) :
    exec (.loadm rd addr) s = takeFault .memoryOutOfBounds (bits32 addr) s := by
  simp [exec, execLoadm, dataIndex_of_outside h]

end Sys2Proof.Machine
end

section
/-! The load and store statements (41_load_store.md). -/

namespace Sys2Proof.Machine

/-- Settles O2: a valid address makes STORE the memory write, and any other makes it the fault. -/
theorem storeWritesOneWordOrFaults : Obligations.StoreWritesOneWordOrFaults := by
  refine fun rd addr s => ⟨hasFields_packWord (toNat_fieldOfReg rd) rfl _ _, fun low high => ?_, fun houtside => ?_⟩
  · exact ⟨_, exec_store_eq low high rd, wordStored_setMem_advance _ _ s⟩
  · rw [exec_store_eq_takeFault houtside rd]
    exact answersFault_takeFault _ _ s

/-- Settles O3: a valid address makes LOADM the register write, and any other makes it the fault. -/
theorem loadmReadsOneWordOrFaults : Obligations.LoadmReadsOneWordOrFaults := by
  refine fun rd addr s => ⟨hasFields_packWord (toNat_fieldOfReg rd) rfl _ _, fun low high => ?_, fun houtside => ?_⟩
  · exact ⟨_, exec_loadm_eq low high rd, registerWritten_setReg_advance rd _ s⟩
  · rw [exec_loadm_eq_takeFault houtside rd]
    exact answersFault_takeFault _ _ s

/-- Settles O1: LOAD is the register write, and PRINT emits the register as it then reads. -/
theorem loadWritesItsImmediate : Obligations.LoadWritesItsImmediate := by
  refine fun rd imm s => ⟨hasFields_packWord (toNat_fieldOfReg rd) rfl _ _, _, rfl,
    registerWritten_setReg_advance rd imm s, _, rfl, ?_⟩
  simp

/-- Settles O35: the six words are the encodings of their instructions, and each of the two others fails first the
check whose fault it gives. -/
theorem exampleWordsDecode : Obligations.ExampleWordsDecode :=
  ⟨decode_encode (i := .load 3 0xFFFFFFFF) rfl, decode_encode (i := .store 2 999) rfl,
    decode_encode (i := .mul 4 5) rfl, decode_encode (i := .cmp 0 1) rfl, decode_encode (i := .jne 3) rfl,
    decode_encode (i := .not 5) rfl, decode_error_iff.2 (by decide), decode_error_iff.2 (by decide)⟩

end Sys2Proof.Machine
end

section
/-! SUPPORT. The outcomes of writing an exact result (R170) and of DIV (R174, R264, R266), one by one. -/

namespace Sys2Proof.Machine

theorem hasFields_packWord_regs (rd rs : Reg) (op : BitVec 8) (imm : Word) :
    hasFields (packWord op (fieldOfReg rd) (fieldOfReg rs) imm) op rd.val rs.val imm :=
  hasFields_packWord (toNat_fieldOfReg rd) (toNat_fieldOfReg rs) op imm

theorem fitsSigned_iff {r : Int} : fitsSigned r = true ↔ -2147483648 ≤ r ∧ r ≤ 2147483647 :=
  decide_eq_true_iff

theorem writeExact_eq_takeFault {r : Int} {s : State} (hfit : ¬ (-2147483648 ≤ r ∧ r ≤ 2147483647))
    (hmode : s.params.ovfMode = .fault) (rd : Reg) : writeExact rd r s = takeFault .arithmeticOverflow 0 s := by
  simp [writeExact, fitsSigned_iff, hfit, hmode]

/-- R170, for ADD, SUB and MUL at once: the result is written where it fits or wraps, and is a fault otherwise. -/
theorem writeExact_writes_or_faults (rd : Reg) (r : Int) (s : State) :
    ((-2147483648 ≤ r ∧ r ≤ 2147483647) ∨ s.params.ovfMode = .wrap →
      ∃ t, writeExact rd r s = .next t ∧ registerWritten rd (bits32 r) s t) ∧
    (¬ (-2147483648 ≤ r ∧ r ≤ 2147483647) → s.params.ovfMode = .fault →
      answersFault (writeExact rd r s) .arithmeticOverflow 0 s) := by
  refine ⟨fun h => ?_, fun hfit hmode => ?_⟩
  · exact ⟨_, writeExact_eq (h.imp_left fitsSigned_iff.2), registerWritten_setReg_advance rd _ s⟩
  · rw [writeExact_eq_takeFault hfit hmode]
    exact answersFault_takeFault _ _ s

section

variable {rd rs : Reg} {s : State}

theorem exec_div_eq_of_zero (h : sint (s.reg rs) = 0) :
    exec (.div rd rs) s = takeFault .divisionByZero (BitVec.ofNat 32 rs.val) s := by
  simp [exec, execDiv, h]

theorem exec_div_eq_of_overflow_fault (ha : sint (s.reg rd) = -2147483648) (hb : sint (s.reg rs) = -1)
    (hmode : s.params.divOvfMode = .fault) : exec (.div rd rs) s = takeFault .arithmeticOverflow 0 s := by
  simp [exec, execDiv, ha, hb, hmode]

theorem exec_div_eq_of_overflow_wrap (ha : sint (s.reg rd) = -2147483648) (hb : sint (s.reg rs) = -1)
    (hmode : s.params.divOvfMode = .wrap) : exec (.div rd rs) s = .next ((s.setReg rd 0x80000000).advance) := by
  simp [exec, execDiv, writeBack, ha, hb, hmode]

end

end Sys2Proof.Machine
end

section
/-! The arithmetic statements (42_arithmetic.md). -/

namespace Sys2Proof.Machine

/-- Settles O4: ADD writes its exact sum by R170. -/
theorem addWritesTheSumOrFaults : Obligations.AddWritesTheSumOrFaults := by
  rintro rd rs s r rfl
  exact ⟨hasFields_packWord_regs rd rs _ _, writeExact_writes_or_faults rd _ s⟩

/-- Settles O5: SUB writes its exact difference by R170. -/
theorem subWritesTheDifferenceOrFaults : Obligations.SubWritesTheDifferenceOrFaults := by
  rintro rd rs s r rfl
  exact ⟨hasFields_packWord_regs rd rs _ _, writeExact_writes_or_faults rd _ s⟩

/-- Settles O6: MUL writes its exact product by R170. -/
theorem mulWritesTheLowProductOrFaults : Obligations.MulWritesTheLowProductOrFaults := by
  rintro rd rs s r rfl
  exact ⟨hasFields_packWord_regs rd rs _ _, writeExact_writes_or_faults rd _ s⟩

/-- Settles O7: each of the four cases makes DIV one register write or one fault. -/
theorem divWritesTheQuotientOrFaults : Obligations.DivWritesTheQuotientOrFaults := by
  rintro rd rs s a b rfl rfl
  refine ⟨hasFields_packWord_regs rd rs _ _, fun hzero => ?zero, fun hb hov => ?ordinary,
    fun ha hb hmode => ?overflowFault, fun ha hb hmode => ?overflowWrap⟩
  case zero =>
    rw [exec_div_eq_of_zero hzero]
    exact answersFault_takeFault _ _ s
  case ordinary =>
    exact ⟨_, execDiv_eq hb hov, registerWritten_setReg_advance rd _ s⟩
  case overflowFault =>
    rw [exec_div_eq_of_overflow_fault ha hb hmode]
    exact answersFault_takeFault _ _ s
  case overflowWrap =>
    exact ⟨_, exec_div_eq_of_overflow_wrap ha hb hmode, registerWritten_setReg_advance rd _ s⟩

/-- Settles O8: MOV is the register write of the source's pattern. -/
theorem movCopiesARegister : Obligations.MovCopiesARegister :=
  fun rd rs s => ⟨hasFields_packWord_regs rd rs _ _, _, rfl, registerWritten_setReg_advance rd _ s⟩

end Sys2Proof.Machine
end

section
/-! SUPPORT. The order CMP's flag stands for (R200), the frames of a flag write and of a pc write, and what a taken and
a conditional jump answer (R202). -/

namespace Sys2Proof.Machine

section

variable {a b : Int}

theorem compareFlag_eq_equal_iff : compareFlag a b = .equal ↔ a = b := by
  unfold compareFlag
  split_ifs <;> simp <;> omega

theorem compareFlag_eq_greater_iff : compareFlag a b = .greater ↔ b < a := by
  unfold compareFlag
  split_ifs <;> simp <;> omega

theorem compareFlag_eq_less_iff : compareFlag a b = .less ↔ a < b := by
  unfold compareFlag
  split_ifs <;> simp <;> omega

end

theorem flagWritten_setFlag_advance (f : Flag) (s : State) : flagWritten f s ((s.setFlag f).advance) :=
  ⟨rfl, rfl, fun _ => rfl, fun _ => rfl, rfl, ⟨rfl, rfl, rfl, rfl, rfl⟩, ⟨rfl, rfl, rfl, rfl, rfl⟩⟩

theorem pcWritten_setPc (target : Nat) (s : State) : pcWritten target s (s.setPc target) :=
  ⟨rfl, rfl, fun _ => rfl, fun _ => rfl, rfl, ⟨rfl, rfl, rfl, rfl, rfl⟩, ⟨rfl, rfl, rfl, rfl, rfl⟩⟩

theorem hasFields_packWord_label (op : BitVec 8) (imm : Word) : hasFields (packWord op 0 0 imm) op 0 0 imm :=
  hasFields_packWord rfl rfl op imm

section

variable {s : State} {id : Nat}

theorem labelTarget_of_validLabel {addr : BitVec 10} (h : validLabel s id addr) :
    s.labelTarget id = some addr.toNat :=
  labelTarget_of_entry h.1 h.2

theorem labelTarget_of_undefinedLabel (h : undefinedLabel s id) : s.labelTarget id = none := by
  obtain hcap | ⟨addr, hentry⟩ := h
  · simp [State.labelTarget, Nat.not_lt.2 hcap]
  · simp [State.labelTarget, hentry]

end

/-- R202, for every jump at once. -/
theorem answersJump_takeJump (id : Nat) (s : State) : answersJump (takeJump id s) id s := by
  refine ⟨fun addr hvalid => ?_, fun hundefined => ?_⟩
  · exact ⟨_, by rw [takeJump, labelTarget_of_validLabel hvalid], pcWritten_setPc _ s⟩
  · rw [takeJump, labelTarget_of_undefinedLabel hundefined]
    exact answersFault_takeFault _ _ s

/-- R202, for the four conditional jumps at once: the label is resolved exactly when the condition holds. -/
theorem jumpIf_jumps_or_advances (p : Prop) [Decidable p] (id : Nat) (s : State) :
    (p → answersJump (jumpIf (decide p) id s) id s) ∧
      (¬ p → ∃ t, jumpIf (decide p) id s = .next t ∧ pcWritten (s.pc + 1) s t) := by
  refine ⟨fun htaken => ?_, fun hnot => ?_⟩
  · rw [decide_eq_true htaken]
    exact answersJump_takeJump id s
  · rw [decide_eq_false hnot]
    exact ⟨_, rfl, pcWritten_setPc (s.pc + 1) s⟩

end Sys2Proof.Machine
end

section
/-! The comparison and jump statements (43_compare_jump.md). -/

namespace Sys2Proof.Machine

/-- Settles O9: CMP is the flag write of the signed order. -/
theorem cmpWritesTheFlag : Obligations.CmpWritesTheFlag :=
  fun ra rb s => ⟨hasFields_packWord_regs ra rb _ _, _, rfl, flagWritten_setFlag_advance _ s,
    compareFlag_eq_equal_iff, compareFlag_eq_greater_iff, compareFlag_eq_less_iff⟩

/-- Settles O10: JMP is the taken jump. -/
theorem jmpGoesToItsLabel : Obligations.JmpGoesToItsLabel :=
  fun id s => ⟨hasFields_packWord_label _ _, answersJump_takeJump id s⟩

/-- Settles O11: JNE is the conditional jump on a flag that is not EQUAL. -/
theorem jneJumpsUnlessEqual : Obligations.JneJumpsUnlessEqual := by
  intro id s
  obtain ⟨hjumps, hadvances⟩ := jumpIf_jumps_or_advances (s.flag ≠ .equal) id s
  exact ⟨hasFields_packWord_label _ _, hjumps, fun hequal => hadvances (not_not.2 hequal)⟩

/-- Settles O12: JEQ is the conditional jump on EQUAL. -/
theorem jeqJumpsIfEqual : Obligations.JeqJumpsIfEqual :=
  fun id s => ⟨hasFields_packWord_label _ _, jumpIf_jumps_or_advances (s.flag = .equal) id s⟩

/-- Settles O13: JGT is the conditional jump on GREATER. -/
theorem jgtJumpsIfGreater : Obligations.JgtJumpsIfGreater :=
  fun id s => ⟨hasFields_packWord_label _ _, jumpIf_jumps_or_advances (s.flag = .greater) id s⟩

/-- Settles O14: JLT is the conditional jump on LESS. -/
theorem jltJumpsIfLess : Obligations.JltJumpsIfLess :=
  fun id s => ⟨hasFields_packWord_label _ _, jumpIf_jumps_or_advances (s.flag = .less) id s⟩

/-- Settles O22: the first CMP keeps the registers, so the second compares the same two values the other way round. -/
theorem compareIsAntisymmetric : Obligations.CompareIsAntisymmetric := by
  refine fun ra rb s => ⟨_, _, rfl, rfl, compareFlag_eq_greater_iff, ?equal, ?greater, ?less⟩
  case equal => exact compareFlag_eq_equal_iff.trans (eq_comm.trans compareFlag_eq_equal_iff.symm)
  case greater => exact compareFlag_eq_greater_iff.trans compareFlag_eq_less_iff.symm
  case less => exact compareFlag_eq_less_iff.trans compareFlag_eq_greater_iff.symm

end Sys2Proof.Machine
end

section
/-! SUPPORT. The frame of an appended event (R230). -/

namespace Sys2Proof.Machine

theorem eventEmitted_emit_advance (d : Reg) (v : Word) (s : State) : eventEmitted d v s ((s.emit d v).advance) :=
  ⟨rfl, rfl, rfl, fun _ => rfl, fun _ => rfl, ⟨rfl, rfl, rfl, rfl, rfl⟩, ⟨rfl, rfl, rfl, rfl, rfl⟩⟩

end Sys2Proof.Machine
end

section
/-! The output statement (44_output.md). -/

namespace Sys2Proof.Machine

/-- Settles O15: PRINT is the appended event of its register as it reads. -/
theorem printEmitsOneEvent : Obligations.PrintEmitsOneEvent :=
  fun rd s => ⟨hasFields_packWord (toNat_fieldOfReg rd) rfl _ _, _, rfl, eventEmitted_emit_advance rd _ s⟩

end Sys2Proof.Machine
end

section
/-! SUPPORT. A written register as it reads afterwards, for the four bitwise instructions: its bits where two patterns
are combined, and the signed value of a complement (R11, R243). -/

namespace Sys2Proof.Machine

/-- R243. The unsigned values of the two patterns add up to 2^32 - 1, so exactly one of the two is negative. -/
theorem toInt_not_eq_neg_sub_one (v : Word) : (~~~v).toInt = -v.toInt - 1 := by
  rw [BitVec.toInt_eq_toNat_cond, BitVec.toInt_eq_toNat_cond, BitVec.toNat_not]
  omega

theorem registerWritten_reg_setReg_advance (rd : Reg) (v : Word) (s : State) :
    registerWritten rd (((s.setReg rd v).advance).reg rd) s ((s.setReg rd v).advance) := by
  rw [State.reg_advance, State.reg_setReg_same]
  exact registerWritten_setReg_advance rd v s

/-- AND, OR and XOR at once: writing back a pattern that combines two patterns by `f`, bit by bit. -/
theorem writeBack_writes_bits (f : Bool → Bool → Bool) {a b v : Word}
    (hv : ∀ k, v.getLsbD k = f (a.getLsbD k) (b.getLsbD k)) (rd : Reg) (s : State) :
    ∃ t, writeBack rd v s = .next t ∧ registerWritten rd (t.reg rd) s t ∧
      ∀ k, (t.reg rd).getLsbD k = f (a.getLsbD k) (b.getLsbD k) := by
  refine ⟨_, rfl, registerWritten_reg_setReg_advance rd v s, fun k => ?_⟩
  rw [State.reg_advance, State.reg_setReg_same]
  exact hv k

end Sys2Proof.Machine
end

section
/-! The bitwise statements (45_bitwise.md). -/

namespace Sys2Proof.Machine

/-- Settles O16: AND writes back the conjunction, whose bits are the conjunctions of the bits. -/
theorem andWritesTheConjunction : Obligations.AndWritesTheConjunction :=
  fun rd rs s => ⟨hasFields_packWord_regs rd rs _ _,
    writeBack_writes_bits and (fun _ => BitVec.getLsbD_and) rd s⟩

/-- Settles O17: OR writes back the disjunction, whose bits are the disjunctions of the bits. -/
theorem orWritesTheDisjunction : Obligations.OrWritesTheDisjunction :=
  fun rd rs s => ⟨hasFields_packWord_regs rd rs _ _,
    writeBack_writes_bits or (fun _ => BitVec.getLsbD_or) rd s⟩

/-- Settles O18: XOR writes back the exclusive or, whose bits are the exclusive ors of the bits. -/
theorem xorWritesTheDifference : Obligations.XorWritesTheDifference :=
  fun rd rs s => ⟨hasFields_packWord_regs rd rs _ _,
    writeBack_writes_bits Bool.xor (fun _ => BitVec.getLsbD_xor) rd s⟩

/-- Settles O19: NOT writes back the complement, which is -n-1 as a signed value and is its own inverse. -/
theorem notWritesTheComplement : Obligations.NotWritesTheComplement := by
  refine fun rd s => ⟨hasFields_packWord (toNat_fieldOfReg rd) rfl _ _, _, rfl,
    registerWritten_reg_setReg_advance rd _ s, ?signed, _, rfl, ?restored⟩
  case signed => rw [State.reg_advance, State.reg_setReg_same, toInt_not_eq_neg_sub_one]
  case restored => simp only [State.reg_advance, State.reg_setReg_same, BitVec.not_not]

end Sys2Proof.Machine
end

section
/-! SUPPORT. What the reset state is and is a function of (R300, R301): its registers and memory as they read, its
image, and the state the host leaves by asserting and releasing `rst`. -/

namespace Sys2Proof.Machine

@[simp] theorem State.reg_assertReset (s : State) (q : Reg) : s.assertReset.reg q = 0 := by
  simp [State.reg]

@[simp] theorem State.mem_assertReset (s : State) (a : Nat) : s.assertReset.mem a = 0 := rfl

theorem State.imageInBounds_reset : State.reset.imageInBounds :=
  ⟨rfl, List.forall_mem_nil _, rfl, List.forall_mem_nil _⟩

theorem State.releaseReset_assertReset_reset : State.reset.assertReset.releaseReset = State.reset := rfl

/-- Reset reads nothing of a state but its image and its parameters. -/
theorem State.assertReset_congr {r s : State} (himem : r.imem = s.imem) (hprogLen : r.progLen = s.progLen)
    (hlt : r.lt = s.lt) (hparams : r.params = s.params) : r.assertReset = s.assertReset := by
  simp only [State.assertReset, himem, hprogLen, hlt, hparams]

theorem hostEvents_assertRst_releaseRst (s : State) :
    hostEvents [.assertRst, .releaseRst] s = .next s.assertReset.releaseReset := rfl

end Sys2Proof.Machine
end

section
/-! The reset statements (70_reset_and_hazards.md). -/

namespace Sys2Proof.Machine

/-- Settles O45: asserting `rst` meets the invariant with any image in bounds, and State.reset is what releasing `rst`
then leaves of the empty image. -/
theorem resetMeetsTheInvariant : Obligations.ResetMeetsTheInvariant := by
  refine ⟨?_, fun _ himage => State.inv_assertReset himage⟩
  rw [← State.releaseReset_assertReset_reset]
  exact (State.inv_assertReset State.imageInBounds_reset).releaseReset

/-- Settles O46: the next state is `s.assertReset`, whose registers and memory read 0 and whose other fields are those
of R301 by definition. -/
theorem resetValuesAreThoseOfTheTable : Obligations.ResetValuesAreThoseOfTheTable :=
  fun s => ⟨s.assertReset, rfl, s.reg_assertReset, s.mem_assertReset, rfl, rfl, rfl, rfl, rfl, rfl, rfl, rfl, rfl, rfl,
    rfl⟩

/-- Settles O47: reset is a function of the image and the parameters, a step looks at `rst` first, and releasing `rst`
keeps STATUS and the pc. -/
theorem resetRestartsTheBlock : Obligations.ResetRestartsTheBlock :=
  fun s _ himem hprogLen hlt hparams => ⟨State.assertReset_congr himem hprogLen hlt hparams,
    step_eq_of_rst s.assertReset_rst, _, hostEvents_assertRst_releaseRst s, rfl, rfl, rfl⟩

end Sys2Proof.Machine
end
